-- ==== Sys2Proof/Word.lean ====
section
/-! DEFINITION. The widths of the block's values (00_scope.md R9). Every value is unsigned. -/

namespace Sys2Proof

/-- PhaseCounter, DutyTime, IterCount and the DATA field (R9). -/
abbrev Word16 := BitVec 16

/-- ElapsedMillis and the host read data (R9). -/
abbrev Word32 := BitVec 32

/-- The host command word (R9, R58). -/
abbrev CmdWord := BitVec 20

end Sys2Proof
end

