-- ==== Sys2Proof/Syntax.lean ====
section
/-! DEFINITION. The ten operations (00_scope.md R2), the signals a step samples (R13), the classes of
reserved host words (30_encoding.md R64), and the host's source lines (R67 to R69). -/

namespace Sys2Proof

/-- The operation set BLDC-PWMGEN 1.0 (00_scope.md R2), one constructor per row of the opcode map
(30_encoding.md R63). An operand has the width of its field (R59), so every term is an encodable operation. -/
inductive Instr where
  | msTick
  | pwmTick
  | seqStep
  | rdStatus
  | rdDuty
  | rdMillis
  | rdPhase
  /-- `BOOT #t`, with `t` the flag TBOK. -/
  | boot (tbok : BitVec 1)
  /-- `WR_DUTY #v`. -/
  | wrDuty (v : Word16)
  | clrMillis
  deriving DecidableEq, Repr

/-- The three ways an operation is selected (30_encoding.md R57). -/
inductive Format where
  /-- H: a 20-bit host command word. -/
  | host
  /-- E: the 2-bit event vector `pwm_tick ++ ms_tick`. -/
  | event
  /-- A: the 2-bit selector SeqState. -/
  | autonomous
  deriving DecidableEq, Repr

/-- A word of one of the three formats. -/
inductive Encoded where
  | host (w : CmdWord)
  | event (ev : BitVec 2)
  | autonomous (sel : BitVec 2)
  deriving DecidableEq, Repr

/-- Why a host word is reserved: the cases (a) to (f) of 30_encoding.md R64. -/
inductive Reserved where
  /-- (a) W = 0, REG 0 to 3, DATA not 0. -/
  | readWithData
  /-- (b) W = 0, REG 4 to 7. -/
  | readOfReservedRegister
  /-- (c) W = 1, REG = 0, DATA[15:1] not 0. -/
  | bootWithData
  /-- (d) W = 1, REG = 2, DATA not 0. -/
  | nonZeroMillisWrite
  /-- (e) W = 1, REG = 3: PHASE is read-only. -/
  | phaseWrite
  /-- (f) W = 1, REG 4 to 7. -/
  | writeOfReservedRegister
  deriving DecidableEq, Repr

/-- The inputs of one step (00_scope.md R13, 20_memory.md R40); `hCmd` is read only when `hValid` is true. -/
structure Inputs where
  rst : Bool
  msTick : Bool
  pwmTick : Bool
  hValid : Bool
  hCmd : CmdWord
  deriving DecidableEq, Repr, Inhabited

/-- The command of a source line (30_encoding.md R67), with the pseudo-instructions of R68 and R69.
Operands are the numbers as written; `SourceCmd.wf` is their range check. -/
inductive SourceCmd where
  /-- `-`: no host command. -/
  | idle
  | rdStatus
  | rdDuty
  | rdMillis
  | rdPhase
  | boot (t : Nat)
  | wrDuty (v : Nat)
  | clrMillis
  /-- `.word 0xHHHHH`. -/
  | word (w : Nat)
  | delay (n : Nat)
  | bootOk
  | bootFail
  | waitRun
  deriving DecidableEq, Repr

/-- One source line `[flags] command * k` (R67). -/
structure SourceLine where
  /-- flag `r`: rst = 1. -/
  rst : Bool
  /-- flag `m`: ms_tick = 1. -/
  msTick : Bool
  /-- flag `p`: pwm_tick = 1. -/
  pwmTick : Bool
  cmd : SourceCmd
  /-- `* k`; 1 where it is not written. -/
  times : Nat
  deriving DecidableEq, Repr

end Sys2Proof
end

