-- ==== Sys2Proof/Config.lean ====
section
/-! DEFINITION. What is fixed when the block is built (00_scope.md R6) and what the environment is free to do
(R16). The open values are constants with no body: nothing can be proved of them but what R8 demands. -/

namespace Sys2Proof

/-- The five parameters of the block (00_scope.md R6). They are constants of the build, not state (20_memory.md R54). -/
structure Params where
  /-- `WAVE_PERIOD`: fast ticks in one wave cycle. -/
  wavePeriod : Nat
  /-- `MIN_OFFSET`: fast ticks at the start of a cycle for which the line is high whatever DutyTime is. -/
  minOffset : Nat
  /-- `ARM_ITERATIONS`: sequencer iterations, each one toggle and one hold. -/
  armIterations : Nat
  /-- `ARM_HIGH_MS`: the hold after the line is driven high. -/
  armHighMs : Nat
  /-- `ARM_LOW_MS`: the hold after the line is driven low. -/
  armLowMs : Nat
  deriving DecidableEq, Repr

/-- `DUTY_MAX = WAVE_PERIOD - MIN_OFFSET` (00_scope.md R7). -/
def Params.dutyMax (p : Params) : Nat := p.wavePeriod - p.minOffset

/-- The parameter set that five arbitrary numbers name, brought into the ranges of 00_scope.md R8: every valid set
is named by some five numbers (`Sys2Proof.Laws.params_build_surjective`), and no other set is
(`Sys2Proof.Laws.params_build_wf`). DESIGN CHOICE, safe (log entry 1). -/
def Params.build (period offset pairs high low : Nat) : Params where
  wavePeriod := 2 + period % 65535
  minOffset := 1 + offset % (1 + period % 65535)
  armIterations := 2 + 2 * (pairs % 32767)
  armHighMs := high % (1 + low % 4294967295)
  armLowMs := 1 + low % 4294967295

/-- OPEN (D19), free value. -/
opaque Config.openPeriod : Nat
/-- OPEN (D19), free value. -/
opaque Config.openOffset : Nat
/-- OPEN (D20), free value. -/
opaque Config.openPairs : Nat
/-- OPEN (D20), free value. -/
opaque Config.openHigh : Nat
/-- OPEN (D20), free value. -/
opaque Config.openLow : Nat

/-- The parameters of the block the model is of: any set that 00_scope.md R8 lets be built. -/
def Config.params : Params :=
  Params.build Config.openPeriod Config.openOffset Config.openPairs Config.openHigh Config.openLow

/-- The inputs the environment presents in the cycle of the given number when none are scheduled in State: free
values, since "any input sequence is admitted" (00_scope.md R16). Log entry 2. -/
opaque Config.environment : Nat → Inputs

/-- The reference parameter set (00_scope.md R10), which fixes the first two parameters only. No rule and no
definition of the model depends on it. -/
def Params.reference (iterations high low : Nat) : Params where
  wavePeriod := 2000
  minOffset := 100
  armIterations := iterations
  armHighMs := high
  armLowMs := low

end Sys2Proof
end

