-- ==== Sys2Proof/Decode.lean ====
section
/-! DEFINITION. Decoding (30_encoding.md R57 to R65), total on every word and rejecting by name, and after it the
encoder (R66), both written from the opcode map R63. -/

namespace Sys2Proof

/-! ## Fields of the host command word (R58) -/

/-- `W`, bit 19: 0 read, 1 write or command. -/
def CmdWord.isWrite (w : CmdWord) : Bool := w.getLsbD 19
/-- `REG`, bits 18:16. -/
def CmdWord.reg (w : CmdWord) : BitVec 3 := w.extractLsb' 16 3
/-- `DATA`, bits 15:0. -/
def CmdWord.data (w : CmdWord) : Word16 := w.extractLsb' 0 16

/-! ## Format H -/

/-- A row of the opcode map for a host command (R63): a word belongs to it when `(word AND mask) = match`. -/
structure HostRow where
  bits : CmdWord
  mask : CmdWord
  /-- The operation, given the DATA field (R59). -/
  operation : Word16 → Instr

/-- The seven H rows of R63, in the table's order. -/
def hostRows : List HostRow := [
  ⟨0x00000#20, 0xFFFFF#20, fun _ => .rdStatus⟩,
  ⟨0x10000#20, 0xFFFFF#20, fun _ => .rdDuty⟩,
  ⟨0x20000#20, 0xFFFFF#20, fun _ => .rdMillis⟩,
  ⟨0x30000#20, 0xFFFFF#20, fun _ => .rdPhase⟩,
  ⟨0x80000#20, 0xFFFFE#20, fun d => .boot (d.extractLsb' 0 1)⟩,
  ⟨0x90000#20, 0xF0000#20, fun d => .wrDuty d⟩,
  ⟨0xA0000#20, 0xFFFFF#20, fun _ => .clrMillis⟩]

/-- Does the word belong to the row (R62)? -/
def HostRow.accepts (r : HostRow) (w : CmdWord) : Bool := w &&& r.mask == r.bits

/-- The class of R64 a word falls into by its fields, none for a word that R64 does not list. -/
def reservedClass (w : CmdWord) : Option Reserved :=
  if w.isWrite then
    if w.reg = 0 then (if w.data.extractLsb' 1 15 = 0 then none else some .bootWithData)
    else if w.reg = 1 then none
    else if w.reg = 2 then (if w.data = 0 then none else some .nonZeroMillisWrite)
    else if w.reg = 3 then some .phaseWrite
    else some .writeOfReservedRegister
  else
    if w.reg.toNat < 4 then (if w.data = 0 then none else some .readWithData)
    else some .readOfReservedRegister

/-- Decoding a host command word (R62): total, reading nothing but the word. A word that matches no row is
reserved, and the class names why (`reservedClass` gives one for every such word:
`Sys2Proof.Laws.reservedClass_of_no_row`; the last class stands in the definition where it would give none). -/
def decodeHost (w : CmdWord) : Except Reserved Instr :=
  match hostRows.find? (fun r => r.accepts w) with
  | some r => .ok (r.operation w.data)
  | none => .error ((reservedClass w).getD .writeOfReservedRegister)

/-! ## Formats E and A -/

/-- The operations an event vector selects (R60, R63), in the order the step applies them (00_scope.md R14). -/
def decodeEvent (ev : BitVec 2) : List Instr :=
  (if ev &&& 0b01#2 = 0b01#2 then [.msTick] else []) ++ (if ev &&& 0b10#2 = 0b10#2 then [.pwmTick] else [])

/-- The operation the autonomous selector selects (R61, R63): SEQ_STEP when SeqState is ARMING. -/
def decodeSelector (sel : BitVec 2) : Option Instr :=
  if sel &&& 0b11#2 = 0b01#2 then some .seqStep else none

/-- The operations a word of any format selects. -/
def decode : Encoded → Except Reserved (List Instr)
  | .host w => (decodeHost w).map fun i => [i]
  | .event ev => .ok (decodeEvent ev)
  | .autonomous sel => .ok (decodeSelector sel).toList

/-! ## The encoder -/

/-- The format of an operation (R57, R63). -/
def Instr.format : Instr → Format
  | .msTick | .pwmTick => .event
  | .seqStep => .autonomous
  | .rdStatus | .rdDuty | .rdMillis | .rdPhase | .boot _ | .wrDuty _ | .clrMillis => .host

/-- The word of an operation (R66; for the event and autonomous formats, R63 with the other strobe 0). -/
def encode : Instr → Encoded
  | .msTick => .event 0b01#2
  | .pwmTick => .event 0b10#2
  | .seqStep => .autonomous 0b01#2
  | .rdStatus => .host 0x00000#20
  | .rdDuty => .host 0x10000#20
  | .rdMillis => .host 0x20000#20
  | .rdPhase => .host 0x30000#20
  | .boot t => .host (0x80000#20 + t.setWidth 20)
  | .wrDuty v => .host (0x90000#20 + v.setWidth 20)
  | .clrMillis => .host 0xA0000#20

/-- The host word of an operation of format H, none for the other formats. -/
def hostWord (i : Instr) : Option CmdWord :=
  match encode i with
  | .host w => some w
  | .event _ | .autonomous _ => none

/-! ## Words as spec/opcode_table.json numbers them -/

/-- A table word as one of the three formats, by its length: 20 bits (24 in whole bytes) is a host word, 2 bits (8 in
whole bytes) an event vector. The autonomous selector is not a word from outside (it is SeqState itself) and has the
event vector's length: log entry 7. -/
def tableWord (nbits w : Nat) : Option Encoded :=
  if nbits = 20 ∨ nbits = 24 then (if w < 1048576 then some (.host (BitVec.ofNat 20 w)) else none)
  else if nbits = 2 ∨ nbits = 8 then (if w < 4 then some (.event (BitVec.ofNat 2 w)) else none)
  else none

/-- The instruction the decoder reads from a table word: the first it selects; none for a reserved word. -/
def decodeTableWord (nbits w : Nat) : Option Instr :=
  match tableWord nbits w with
  | some e => match decode e with
    | .ok is => is.head?
    | .error _ => none
  | none => none

end Sys2Proof
end

