-- ==== Sys2Proof/Machine/State.lean ====
section
/-! DEFINITION. The state (10_state.md R17), its reset value (R36), the signals around it (00_scope.md R13), and
the reasons a step could stop. Plain data. -/

namespace Sys2Proof.Machine

/-- The mode of the block (10_state.md R22), all four values of its two bits. -/
inductive SeqState where
  | idle
  | arming
  | run
  | halted
  deriving DecidableEq, Repr

/-- The phase of the current arming iteration (10_state.md R23), both values of its one bit. -/
inductive SeqPhase where
  | drive
  | hold
  deriving DecidableEq, Repr

/-- THE ARCHITECTURAL STATE: exactly the seven elements of 10_state.md R17, 84 bits. -/
structure Block where
  /-- Position within one PWM wave cycle (R18). -/
  phaseCounter : Word16
  /-- Duty-time input of the comparator (R19). -/
  dutyTime : Word16
  /-- Millisecond counter (R20). -/
  elapsedMillis : Word32
  /-- Stored state of the output line, true = high (R21). -/
  outLine : Bool
  /-- Mode (R22). -/
  seqState : SeqState
  /-- Phase of the arming iteration (R23). -/
  seqPhase : SeqPhase
  /-- Arming iterations completed (R24). -/
  iterCount : Word16
  deriving DecidableEq, Repr

/-- A host response code (60_exceptions.md R122); the fourth value of the two bits is never produced. -/
inductive RespCode where
  | okay
  | errReserved
  | errState
  deriving DecidableEq, Repr

/-- The response to a host command: code and 32-bit read data (60_exceptions.md R122). -/
structure Response where
  code : RespCode
  data : Word32
  deriving DecidableEq, Repr

/-- The outputs of a step (00_scope.md R13). -/
structure Outputs where
  pwmOut : Bool
  hResp : BitVec 2
  hRdata : Word32
  deriving DecidableEq, Repr

/-- What an outcome of the machine is: the pair `State x Outputs` of 00_scope.md R13 in one value, since the host's interface
gives an outcome one value, and the environment. `block` is the state of the spec, whole. `response` is the output of the
operation just run and no storage (10_state.md R28): nothing reads it and no operation carries an earlier one on
(`Sys2Proof.Machine.exec_forgets_response`, `Sys2Proof.Machine.step_forgets_response`). -/
structure State where
  /-- The architectural state. -/
  block : Block
  /-- OUTPUT, not state: the response of the operation or cycle just run, none when it has none. Every operation and
  every cycle gives it anew, whatever it was before. Log entry 3. -/
  response : Option Response
  /-- The inputs scheduled for the coming cycles, the next first; with none left the environment is free. Log entry 2. -/
  inputs : List Inputs
  /-- The number of the coming cycle, which picks the free environment's inputs. Log entry 2. -/
  cycle : Nat
  deriving DecidableEq, Repr

/-- Why the machine stops with a fault: nothing raises one, so there is no constructor. The step of the spec is total
(00_scope.md R13) and its one fault, `Halt(E_TIMEBASE)`, is the mode HALTED, in which the block goes on stepping
(60_exceptions.md R120, R121). Log entry 4. -/
inductive Fault where
  deriving DecidableEq, Repr

/-- Why an instruction is refused. -/
inductive Refusal where
  /-- Raised by an arm of `exec` that has no meaning yet; no arm does. Safe. -/
  | notModelled (mnemonic : String)
  deriving DecidableEq, Repr

/-- The outcome of a step or of an operation. -/
abbrev Result := Host.Outcome State Fault Refusal

/-- The reset values of 10_state.md R36. -/
def Block.reset : Block where
  phaseCounter := 0
  dutyTime := 0
  elapsedMillis := 0
  outLine := false
  seqState := .idle
  seqPhase := .drive
  iterCount := 0

/-- The machine right after reset (R36, R141): no response, nothing scheduled, cycle 0. -/
def State.reset : State where
  block := Block.reset
  response := none
  inputs := []
  cycle := 0

end Sys2Proof.Machine
end

