-- ==== Sys2Proof/Machine/Operands.lean ====
section
/-! DEFINITION. The values operations work on: numbers of the mode and phase, the signals' fields, the comparator
threshold, the hold target, operands of commands, and the four host-visible registers. -/

namespace Sys2Proof.Machine

/-- The number of a mode (10_state.md R22): the selector of format A and the SEQ field of STATUS. -/
def SeqState.code : SeqState → BitVec 2
  | .idle => 0#2
  | .arming => 1#2
  | .run => 2#2
  | .halted => 3#2

/-- The number of a phase (10_state.md R23). -/
def SeqPhase.code : SeqPhase → BitVec 1
  | .drive => 0#1
  | .hold => 1#1

/-- The event vector `pwm_tick ++ ms_tick` of a step (30_encoding.md R57, R60). -/
def eventVector (i : Inputs) : BitVec 2 := BitVec.ofBool i.pwmTick ++ BitVec.ofBool i.msTick

/-- `BOOT`'s operand read as a flag: the timebase was configured (30_encoding.md R59, 42_arming_sequencer.md R101). -/
def timebaseOk (tbok : BitVec 1) : Bool := tbok = 1#1

/-- `MIN_OFFSET + DutyTime` as an exact natural number, never wrapped (41_pwm_generator.md R87). -/
def Block.threshold (p : Params) (b : Block) : Nat := p.minOffset + b.dutyTime.toNat

/-- The hold target, chosen from the line as it is now (42_arming_sequencer.md R108). -/
def Block.holdTarget (p : Params) (b : Block) : Nat := if b.outLine then p.armHighMs else p.armLowMs

/-- The host-visible registers (10_state.md R30), numbered 0 to 3. -/
inductive HostReg where
  | status
  | duty
  | millis
  | phase
  deriving DecidableEq, Repr

/-- The `REG` number of a register (R30). -/
def HostReg.number : HostReg → BitVec 3
  | .status => 0#3
  | .duty => 1#3
  | .millis => 2#3
  | .phase => 3#3

/-- The register a host command reaches (20_memory.md R41); the tick operations and SEQ_STEP have no register number. -/
def commandRegister : Instr → Option HostReg
  | .rdStatus | .boot _ => some .status
  | .rdDuty | .wrDuty _ => some .duty
  | .rdMillis | .clrMillis => some .millis
  | .rdPhase => some .phase
  | .msTick | .pwmTick | .seqStep => none

/-- The command writes its register or is a command, `W = 1` (10_state.md R30, 30_encoding.md R58). -/
def commandWrites : Instr → Bool
  | .boot _ | .wrDuty _ | .clrMillis => true
  | .rdStatus | .rdDuty | .rdMillis | .rdPhase | .msTick | .pwmTick | .seqStep => false

end Sys2Proof.Machine
end

