-- ==== Sys2Proof/Machine/Flags.lean ====
section
/-! DEFINITION. The derived one-bit values (10_state.md R25, R26): the generator enable, the comparator's decision,
the end of a hold, the end of arming; STATUS; the response code's bits. The block has no arithmetic flags. -/

namespace Sys2Proof.Machine

/-- GenEn: the generator is enabled exactly in RUN (10_state.md R25). -/
def Block.genEn (b : Block) : Bool := b.seqState = .run

/-- DRIVE_HIGH: `PhaseCounter < MIN_OFFSET + DutyTime`, unsigned and strict (41_pwm_generator.md R87). -/
def Block.drivesHigh (p : Params) (b : Block) : Bool := b.phaseCounter.toNat < b.threshold p

/-- The hold is over: `ElapsedMillis >= target`, unsigned on all 32 bits (42_arming_sequencer.md R106). -/
def Block.holdOver (p : Params) (b : Block) : Bool := b.holdTarget p ≤ b.elapsedMillis.toNat

/-- All iterations are done: `IterCount = ARM_ITERATIONS` (42_arming_sequencer.md R104). -/
def Block.iterationsDone (p : Params) (b : Block) : Bool := b.iterCount.toNat = p.armIterations

/-- STATUS (10_state.md R31): `IterCount ++ 0b00000000000 ++ OutLine ++ GenEn ++ SeqPhase ++ SeqState`
(42_arming_sequencer.md R109). -/
def Block.status (b : Block) : Word32 :=
  b.iterCount ++ (0#11 ++ (BitVec.ofBool b.outLine ++ (BitVec.ofBool b.genEn ++ (b.seqPhase.code ++ b.seqState.code))))

/-- `x[i]`, the read of a host-visible register (00_scope.md R12, 10_state.md R30 to R32). -/
def Block.readReg (b : Block) : HostReg → Word32
  | .status => b.status
  | .duty => b.dutyTime.setWidth 32
  | .millis => b.elapsedMillis
  | .phase => b.phaseCounter.setWidth 32

/-- The bits of a response code on `h_resp` (60_exceptions.md R122). -/
def RespCode.bits : RespCode → BitVec 2
  | .okay => 0#2
  | .errReserved => 1#2
  | .errState => 2#2

/-- A response is an error (60_exceptions.md R119). -/
def RespCode.isError : RespCode → Bool
  | .okay => false
  | .errReserved | .errState => true

end Sys2Proof.Machine
end

