-- ==== Sys2Proof/Machine/Ops.lean ====
section
/-! DEFINITION. The shared operations: writes of the seven elements, responses, TAKING THE ONE FAULT (60_exceptions.md
R120), reset (the only way back from it, R131), and the signals of a step. -/

namespace Sys2Proof.Machine

/-! ## Writes of the block's elements -/

/-- ElapsedMillis <- `min(ElapsedMillis + 1, 2^32 - 1)` (40_tick_counter.md R75, R76, R84). -/
def Block.incrementMillis (b : Block) : Block :=
  { b with elapsedMillis := if b.elapsedMillis = 0xFFFFFFFF#32 then 0xFFFFFFFF#32 else b.elapsedMillis + 1#32 }

/-- ElapsedMillis <- 0, the start of a delay (40_tick_counter.md R79, 42_arming_sequencer.md R105). -/
def Block.clearMillis (b : Block) : Block := { b with elapsedMillis := 0#32 }

/-- PhaseCounter one further, 0 after `WAVE_PERIOD - 1` (41_pwm_generator.md R89; 90_conflicts.md C1). -/
def Block.nextPhase (p : Params) (b : Block) : Word16 :=
  if b.phaseCounter.toNat + 1 ≥ p.wavePeriod then 0#16 else b.phaseCounter + 1#16

/-- OutLine <- the complement of OutLine (42_arming_sequencer.md R105). -/
def Block.toggleLine (b : Block) : Block := { b with outLine := !b.outLine }

/-- `raise Halt(E_TIMEBASE)`: TAKING THE FAULT. SeqState <- HALTED and nothing else: nothing is saved, no handler is
entered (60_exceptions.md R120). There is no return from it (R131): `Block.reset` is the one way out. -/
def Block.raiseHalt (b : Block) : Block := { b with seqState := .halted }

/-! ## Responses (60_exceptions.md R122) -/

/-- `respond(OKAY, data)`. -/
def okay (data : Word32) : Response := ⟨.okay, data⟩

/-- `respond(ERR_STATE, 0)`: the command is not permitted in this mode (60_exceptions.md R124). -/
def refusedByMode : Response := ⟨.errState, 0#32⟩

/-- `respond(ERR_RESERVED, 0)`: the word is reserved (60_exceptions.md R123). -/
def reservedWord : Response := ⟨.errReserved, 0#32⟩

/-- A read of a register: `respond(OKAY, x[i])`, no state change (20_memory.md R47). -/
def Block.read (r : HostReg) (b : Block) : Block × Response := (b, okay (b.readReg r))

/-! ## The machine's state -/

/-- The outcome of an operation without a response: the block changes, and no response is given. -/
def State.withBlock (s : State) (b : Block) : State := { s with block := b, response := none }

/-- The outcome of a host command: the block after it and its response. -/
def State.complete (s : State) (r : Block × Response) : State := { s with block := r.1, response := some r.2 }

/-- `pwm_out`, always equal to OutLine (10_state.md R21). -/
def State.pwmOut (s : State) : Bool := s.block.outLine

/-- The outputs of the step that led here (00_scope.md R13): with no response, `h_resp` and `h_rdata` read as 0. -/
def outputsOf (b : Block) (r : Option Response) : Outputs where
  pwmOut := b.outLine
  hResp := match r with | some x => x.code.bits | none => 0#2
  hRdata := match r with | some x => x.data | none => 0#32

/-- The outputs after a step. -/
def State.outputs (s : State) : Outputs := outputsOf s.block s.response

/-! ## The signals of a step -/

/-- The inputs of the coming cycle: the next scheduled, or with none scheduled whatever the environment presents. -/
def State.nextInputs (s : State) : Inputs := s.inputs.headD (Config.environment s.cycle)

/-- The state in which the coming cycle's operations start: its inputs taken, no response yet. -/
def State.beginCycle (s : State) : State := { s with inputs := s.inputs.tail, cycle := s.cycle + 1, response := none }

/-- The reset operation (70_reset_and_hazards.md R141): all seven elements at their reset values, no response. -/
def State.applyReset (s : State) : State := { s with block := Block.reset, response := none }

/-- The inputs of a cycle with a host command and nothing else. -/
def inputsOfCommand (w : CmdWord) : Inputs := ⟨false, false, false, true, w⟩

/-- The inputs of a cycle with the strobes of an event vector and nothing else (30_encoding.md R60). -/
def inputsOfStrobes (ev : BitVec 2) : Inputs := ⟨false, ev.getLsbD 0, ev.getLsbD 1, false, 0#20⟩

/-- Schedule the inputs of the next cycle, before those already scheduled. -/
def State.present (s : State) (i : Inputs) : State := { s with inputs := i :: s.inputs }

end Sys2Proof.Machine
end

