-- ==== Sys2Proof/Machine/ArmingSequencer.lean ====
section
/-! DEFINITION. The Arming Sequencer family (42_arming_sequencer.md): BOOT, SEQ_STEP, RD_STATUS. -/

namespace Sys2Proof.Machine

/-- `BOOT #t` on the block (R101): accepted in IDLE only (R102); `t = 1` starts arming, `t = 0` halts (R103). The
response to an accepted `BOOT #0` is OKAY. -/
def opBoot (tbok : BitVec 1) (b : Block) : Block × Response :=
  match b.seqState with
  | .idle =>
    if timebaseOk tbok then ({ b with seqState := .arming, seqPhase := .drive, iterCount := 0#16 }, okay 0#32)
    else (b.raiseHalt, okay 0#32)
  | .arming | .run | .halted => (b, refusedByMode)

/-- The drive case (R105): toggle the line and begin the hold. -/
def Block.driveCase (b : Block) : Block := { b.toggleLine.clearMillis with seqPhase := .hold }

/-- The end of a hold (R106): one more iteration completed. -/
def Block.endHold (b : Block) : Block := { b with iterCount := b.iterCount + 1#16, seqPhase := .drive }

/-- The finish case (R107): the generator is enabled. -/
def Block.finishCase (b : Block) : Block := { b with seqState := .run }

/-- `SEQ_STEP` on the block (R104). Outside ARMING it is never selected (30_encoding.md R61) and changes nothing
(DEDUCED, log entry 5). -/
def opSeqStep (p : Params) (b : Block) : Block :=
  match b.seqState with
  | .arming =>
    match b.seqPhase with
    | .drive => if b.iterationsDone p then b.finishCase else b.driveCase
    | .hold => if b.holdOver p then b.endHold else b
  | .idle | .run | .halted => b

/-- `RD_STATUS` on the block (R109). -/
def opRdStatus (b : Block) : Block × Response := b.read .status

/-- `BOOT #t`. -/
def execBoot (tbok : BitVec 1) (s : State) : Result := .next (s.complete (opBoot tbok s.block))

/-- `SEQ_STEP`. -/
def execSeqStep (s : State) : Result := .next (s.withBlock (opSeqStep Config.params s.block))

/-- `RD_STATUS`. -/
def execRdStatus (s : State) : Result := .next (s.complete (opRdStatus s.block))

end Sys2Proof.Machine
end

