-- ==== Sys2Proof/Machine/PwmGenerator.lean ====
section
/-! DEFINITION. The PWM Waveform Generator family (41_pwm_generator.md): PWM_TICK, WR_DUTY, RD_DUTY, RD_PHASE. -/

namespace Sys2Proof.Machine

/-- `PWM_TICK` on the block (R85): ignored outside RUN (R86); in RUN the line and the counter are both computed from
the counter before the tick. -/
def opPwmTick (p : Params) (b : Block) : Block :=
  if b.genEn then { b with outLine := b.drivesHigh p, phaseCounter := b.nextPhase p } else b

/-- `WR_DUTY #v` on the block (R93): stored unchecked (R88), refused in HALTED. -/
def opWrDuty (v : Word16) (b : Block) : Block × Response :=
  match b.seqState with
  | .halted => (b, refusedByMode)
  | .idle | .arming | .run => ({ b with dutyTime := v }, okay 0#32)

/-- `RD_DUTY` on the block (R94). -/
def opRdDuty (b : Block) : Block × Response := b.read .duty

/-- `RD_PHASE` on the block (R95). -/
def opRdPhase (b : Block) : Block × Response := b.read .phase

/-- `PWM_TICK`. -/
def execPwmTick (s : State) : Result := .next (s.withBlock (opPwmTick Config.params s.block))

/-- `WR_DUTY #v`. -/
def execWrDuty (v : Word16) (s : State) : Result := .next (s.complete (opWrDuty v s.block))

/-- `RD_DUTY`. -/
def execRdDuty (s : State) : Result := .next (s.complete (opRdDuty s.block))

/-- `RD_PHASE`. -/
def execRdPhase (s : State) : Result := .next (s.complete (opRdPhase s.block))

end Sys2Proof.Machine
end

