-- ==== Sys2Proof/Machine/TickCounter.lean ====
section
/-! DEFINITION. The Tick Counter family (40_tick_counter.md): MS_TICK, RD_MILLIS, CLR_MILLIS. -/

namespace Sys2Proof.Machine

/-- `MS_TICK` on the block (R75), in every mode (R77). -/
def opMsTick (b : Block) : Block := b.incrementMillis

/-- `RD_MILLIS` on the block (R78): all 32 bits, in every mode. -/
def opRdMillis (b : Block) : Block × Response := b.read .millis

/-- `CLR_MILLIS` on the block (R79): refused in ARMING and HALTED (R80). -/
def opClrMillis (b : Block) : Block × Response :=
  match b.seqState with
  | .arming | .halted => (b, refusedByMode)
  | .idle | .run => (b.clearMillis, okay 0#32)

/-- `MS_TICK`. -/
def execMsTick (s : State) : Result := .next (s.withBlock (opMsTick s.block))

/-- `RD_MILLIS`. -/
def execRdMillis (s : State) : Result := .next (s.complete (opRdMillis s.block))

/-- `CLR_MILLIS`. -/
def execClrMillis (s : State) : Result := .next (s.complete (opClrMillis s.block))

end Sys2Proof.Machine
end

