-- ==== Sys2Proof/Machine/Dispatch.lean ====
section
/-! DEFINITION. One arm per operation of the opcode map (30_encoding.md R63). -/

namespace Sys2Proof.Machine

def exec (i : Instr) (s : State) : Host.Outcome State Fault Refusal :=
  match i with
  -- format E
  | .msTick => Sys2Proof.Machine.execMsTick s
  | .pwmTick => Sys2Proof.Machine.execPwmTick s
  -- format A
  | .seqStep => Sys2Proof.Machine.execSeqStep s
  -- format H
  | .rdStatus => Sys2Proof.Machine.execRdStatus s
  | .rdDuty => Sys2Proof.Machine.execRdDuty s
  | .rdMillis => Sys2Proof.Machine.execRdMillis s
  | .rdPhase => Sys2Proof.Machine.execRdPhase s
  | .boot tbok => Sys2Proof.Machine.execBoot tbok s
  | .wrDuty v => Sys2Proof.Machine.execWrDuty v s
  | .clrMillis => Sys2Proof.Machine.execClrMillis s

end Sys2Proof.Machine
end

