-- ==== Sys2Proof/Machine/Cycle.lean ====
section
/-! DEFINITION. The composition of one clock cycle (00_scope.md R14) out of the decoded operations. -/

namespace Sys2Proof.Machine

/-- Go on from a next state; a fault or a refusal ends the cycle. -/
def andThen (r : Result) (f : State → Result) : Result :=
  match r with
  | .next s => f s
  | .fault x => .fault x
  | .refused x => .refused x

/-- Run operations one after another, each on the state the previous one left (R14, R15). -/
def runOps : List Instr → State → Result
  | [], s => .next s
  | i :: is, s => andThen (exec i s) (runOps is)

/-- Part 1 and 2 of the cycle: the operations the event vector selects, MS_TICK before PWM_TICK. -/
def eventStage (i : Inputs) (s : State) : Result := runOps (decodeEvent (eventVector i)) s

/-- Part 3: SEQ_STEP if SeqState is ARMING in the state the ticks left (30_encoding.md R61). -/
def sequencerStage (s : State) : Result := runOps (decodeSelector s.block.seqState.code).toList s

/-- A host word: the decoded command, or `respond(ERR_RESERVED, 0)` and no state change for a reserved word, whatever
the mode (30_encoding.md R64, 60_exceptions.md R123, R129). -/
def hostCommand (w : CmdWord) (s : State) : Result :=
  match decodeHost w with
  | .ok c => exec c s
  | .error _ => .next (s.complete (s.block, reservedWord))

/-- Part 4: the host command, if one is presented. -/
def hostStage (i : Inputs) (s : State) : Result := if i.hValid then hostCommand i.hCmd s else .next s

/-- One cycle with the inputs `i` (R14): reset alone, or the four parts in order. -/
def clockCycle (i : Inputs) (s : State) : Result :=
  if i.rst then .next s.applyReset
  else andThen (eventStage i s) fun s1 => andThen (sequencerStage s1) fun s2 => hostStage i s2

end Sys2Proof.Machine
end

