-- ==== Sys2Proof/Machine/Step.lean ====
section
/-! DEFINITION. One step is one clock cycle (00_scope.md R13). -/

namespace Sys2Proof.Machine

/-- One step: the inputs of the coming cycle are sampled and the cycle runs. -/
def step (s : State) : Host.Outcome State Fault Refusal := clockCycle s.nextInputs s.beginCycle

/-- Present a word of spec/opcode_table.json in the next cycle: a host word on `h_cmd`, an event vector on the strobes,
every other input 0. Log entry 7. -/
def State.withFetchWord (s : State) (nbits w : Nat) : State :=
  match tableWord nbits w with
  | some (.host c) => s.present (inputsOfCommand c)
  | some (.event ev) => s.present (inputsOfStrobes ev)
  | some (.autonomous _) => s
  | none => s

end Sys2Proof.Machine
end

