-- ==== Sys2Proof/Machine/Clocked.lean ====
section
/-! DEFINITION. The step function as 00_scope.md R13 writes it, `Params -> State -> Inputs -> State x Outputs`, on the
seven elements alone and for any parameter set. `Sys2Proof.Machine.step` is this function at `Config.params`. -/

namespace Sys2Proof.Machine

/-- An operation on the block, with its response if it has one. -/
def applyOp (p : Params) (i : Instr) (b : Block) : Block × Option Response :=
  match i with
  | .msTick => (opMsTick b, none)
  | .pwmTick => (opPwmTick p b, none)
  | .seqStep => (opSeqStep p b, none)
  | .rdStatus => (opRdStatus b).map id some
  | .rdDuty => (opRdDuty b).map id some
  | .rdMillis => (opRdMillis b).map id some
  | .rdPhase => (opRdPhase b).map id some
  | .boot tbok => (opBoot tbok b).map id some
  | .wrDuty v => (opWrDuty v b).map id some
  | .clrMillis => (opClrMillis b).map id some

/-- A host word on the block (30_encoding.md R62, R64). -/
def applyWord (p : Params) (w : CmdWord) (b : Block) : Block × Option Response :=
  match decodeHost w with
  | .ok c => applyOp p c b
  | .error _ => (b, some reservedWord)

/-- The block after the ticks of a cycle (R14, parts 1 and 2). -/
def afterTicks (p : Params) (b : Block) (i : Inputs) : Block :=
  let b1 := if i.msTick then opMsTick b else b
  if i.pwmTick then opPwmTick p b1 else b1

/-- The block after the ticks and the sequencer's step (R14, parts 1 to 3). -/
def afterSequencer (p : Params) (b : Block) (i : Inputs) : Block :=
  let b2 := afterTicks p b i
  if b2.seqState = .arming then opSeqStep p b2 else b2

/-- One cycle of the block (R14): the block after it and the response, if a command was presented. -/
def blockCycle (p : Params) (b : Block) (i : Inputs) : Block × Option Response :=
  if i.rst then (Block.reset, none)
  else if i.hValid then applyWord p i.hCmd (afterSequencer p b i)
  else (afterSequencer p b i, none)

/-- THE STEP FUNCTION of R13. -/
def clockStep (p : Params) (b : Block) (i : Inputs) : Block × Outputs :=
  let r := blockCycle p b i
  (r.1, outputsOf r.1 r.2)

/-- The block after a run over a sequence of inputs. -/
def runBlock (p : Params) : Block → List Inputs → Block
  | b, [] => b
  | b, i :: is => runBlock p (clockStep p b i).1 is

/-- What is observed of a run: the outputs, one per step (70_reset_and_hazards.md R160). -/
def observe (p : Params) : Block → List Inputs → List Outputs
  | _, [] => []
  | b, i :: is => (clockStep p b i).2 :: observe p (clockStep p b i).1 is

end Sys2Proof.Machine
end

