-- ==== Sys2Proof/Machine/HostProgram.lean ====
section
/-! DEFINITION. The host as a program of commands and of the pseudo-instructions DELAY, BOOT_OK, BOOT_FAIL and WAIT_RUN
(30_encoding.md R68, R69), run against the block; and the reference host (20_memory.md R55, 70_reset_and_hazards.md
R148). The host is not hardware of the block: nothing here is part of `step`. -/

namespace Sys2Proof.Machine

/-- What the host does next. -/
inductive HostTask where
  /-- One step with `rst` as given and the given command word, if any. -/
  | line (rst : Bool) (cmd : Option CmdWord)
  /-- `DELAY #n` before its CLR_MILLIS. -/
  | delay (n : Word32)
  /-- `DELAY #n` after its CLR_MILLIS: RD_MILLIS until the answer is at least `n`. -/
  | poll (n : Word32)
  /-- `WAIT_RUN`: RD_STATUS until SEQ = RUN. -/
  | waitRun
  deriving DecidableEq, Repr

/-- The line that issues an operation of format H. -/
def HostTask.issue (i : Instr) : HostTask := .line false (hostWord i)

/-- `BOOT_OK` is `BOOT #1` (R69). -/
def HostTask.bootOk : HostTask := .issue (.boot 1#1)

/-- `BOOT_FAIL` is `BOOT #0` (R69). -/
def HostTask.bootFail : HostTask := .issue (.boot 0#1)

/-- The command the task presents in its step (R68, R69). -/
def HostTask.command : HostTask → Option CmdWord
  | .line _ c => c
  | .delay _ => hostWord .clrMillis
  | .poll _ => hostWord .rdMillis
  | .waitRun => hostWord .rdStatus

/-- The reset signal in the task's step. -/
def HostTask.resets : HostTask → Bool
  | .line r _ => r
  | .delay _ | .poll _ | .waitRun => false

/-- What is left of the task after its step, given the response: none when it is over. A DELAY whose CLR_MILLIS is
refused is abandoned (R68). -/
def HostTask.after (t : HostTask) (r : Option Response) : Option HostTask :=
  match t, r with
  | .line _ _, _ => none
  | .delay n, some ⟨.okay, _⟩ => some (.poll n)
  | .delay _, some ⟨.errState, _⟩ | .delay _, some ⟨.errReserved, _⟩ | .delay _, none => none
  | .poll n, some x => if n.toNat ≤ x.data.toNat then none else some (.poll n)
  | .waitRun, some x => if x.data.extractLsb' 0 2 = SeqState.run.code then none else some .waitRun
  | t, none => some t

/-- The inputs of a step in which the host is at the given tasks and the environment ticks as given (ms, pwm). -/
def hostInputs (ticks : Bool × Bool) : List HostTask → Inputs
  | [] => ⟨false, ticks.1, ticks.2, false, 0#20⟩
  | t :: _ => ⟨t.resets, ticks.1, ticks.2, t.command.isSome, t.command.getD 0#20⟩

/-- One step of the block and its host together. With no task left the host presents nothing. -/
def hostStep (p : Params) (ticks : Bool × Bool) (c : Block × List HostTask) : Block × List HostTask :=
  let r := blockCycle p c.1 (hostInputs ticks c.2)
  match c.2 with
  | [] => (r.1, [])
  | t :: ts => (r.1, (t.after r.2).toList ++ ts)

/-- A run of the block and its host over the ticks of the environment. -/
def runHost (p : Params) : List (Bool × Bool) → Block × List HostTask → Block × List HostTask
  | [], c => c
  | t :: ts, c => runHost p ts (hostStep p t c)

/-- The sampler's scaling `raw * 100 / max_raw`, integer division rounding toward zero (20_memory.md R55). -/
def scaleSample (raw maxRaw : Nat) : Nat := raw * 100 / maxRaw

/-- A host whose program ends in a loop: what it has still to do before its next turn, and the number of that turn. -/
structure LoopHost where
  tasks : List HostTask
  turn : Nat
  deriving DecidableEq, Repr

/-- Go to the loop when nothing is left to do; that takes no step. `body k` is what turn `k` does. -/
def LoopHost.ready (body : Nat → List HostTask) (h : LoopHost) : LoopHost :=
  match h.tasks with
  | [] => ⟨body h.turn, h.turn + 1⟩
  | _ :: _ => h

/-- The inputs of a step in which a looping host is at `h`. -/
def LoopHost.inputs (body : Nat → List HostTask) (h : LoopHost) (ticks : Bool × Bool) : Inputs :=
  hostInputs ticks (h.ready body).tasks

/-- One step of the block and a looping host together. -/
def loopStep (p : Params) (body : Nat → List HostTask) (ticks : Bool × Bool) (c : Block × LoopHost) : Block × LoopHost :=
  let h := c.2.ready body
  let r := hostStep p ticks (c.1, h.tasks)
  (r.1, ⟨r.2, h.turn⟩)

/-- A run of the block and a looping host over the ticks of the environment; the loop has no exit. -/
def runLoop (p : Params) (body : Nat → List HostTask) : List (Bool × Bool) → Block × LoopHost → Block × LoopHost
  | [], c => c
  | t :: ts, c => runLoop p body ts (loopStep p body t c)

/-- One turn of the reference host's loop (R148): `DELAY #10`, then publish the scaled sample. -/
def referenceTurn (maxRaw raw : Nat) : List HostTask :=
  [.delay 10#32, .issue (.wrDuty (BitVec.ofNat 16 (scaleSample raw maxRaw)))]

/-- The reference host program (R148) at its start: reset, BOOT with the timebase's result, WAIT_RUN, then the loop. -/
def referenceStart (timebaseOk : Bool) : LoopHost :=
  ⟨[.line true none, if timebaseOk then .bootOk else .bootFail, .waitRun], 0⟩

/-- The body of the reference host's loop, for ever (R148): turn `k` publishes the sample `raw k`, which comes from outside. -/
def referenceLoop (maxRaw : Nat) (raw : Nat → Nat) (k : Nat) : List HostTask := referenceTurn maxRaw (raw k)

/-- The reference host and the block, from any block, over the ticks of the environment. -/
def runReference (p : Params) (timebaseOk : Bool) (maxRaw : Nat) (raw : Nat → Nat) (ticks : List (Bool × Bool))
    (b : Block) : Block × LoopHost :=
  runLoop p (referenceLoop maxRaw raw) ticks (b, referenceStart timebaseOk)

end Sys2Proof.Machine
end

