-- ==== Sys2Proof/WellFormed.lean ====
section
/-! DEFINITION. What is built and what is refused: parameter sets (00_scope.md R8) and source lines (30_encoding.md
R67, R68). An `Instr` needs no check: each operand has exactly the width of its field (R59). -/

namespace Sys2Proof

/-- R8 a. -/
abbrev Params.offsetPositive (p : Params) : Prop := 1 ≤ p.minOffset
/-- R8 b. -/
abbrev Params.offsetBelowPeriod (p : Params) : Prop := p.minOffset < p.wavePeriod
/-- R8 c. -/
abbrev Params.periodFits (p : Params) : Prop := p.wavePeriod ≤ 65536
/-- R8 d: a warning, not a refusal, so no part of `wf`. -/
abbrev Params.holdsPercentage (p : Params) : Prop := 100 ≤ p.dutyMax
/-- R8 e. -/
abbrev Params.iterationsEven (p : Params) : Prop :=
  p.armIterations % 2 = 0 ∧ 2 ≤ p.armIterations ∧ p.armIterations ≤ 65535
/-- R8 f. -/
abbrev Params.highShorter (p : Params) : Prop := p.armHighMs < p.armLowMs
/-- R8 g. The lower bound `0 ≤ ARM_HIGH_MS` is the type's. -/
abbrev Params.lowFits (p : Params) : Prop := p.armLowMs ≤ 4294967295

/-- A parameter set that may be built: every refusing constraint of R8 (a, b, c, e, f, g). -/
abbrev Params.wf (p : Params) : Prop :=
  p.offsetPositive ∧ p.offsetBelowPeriod ∧ p.periodFits ∧ p.iterationsEven ∧ p.highShorter ∧ p.lowFits

/-- The operand ranges of a source line (R67, R68): `t` 0 or 1, `v` 0 to 65535, a 20-bit word, `n` up to 2^32 - 1. -/
def SourceCmd.wf : SourceCmd → Bool
  | .boot t => decide (t ≤ 1)
  | .wrDuty v => decide (v ≤ 65535)
  | .word w => decide (w < 1048576)
  | .delay n => decide (n ≤ 4294967295)
  | .idle | .rdStatus | .rdDuty | .rdMillis | .rdPhase | .clrMillis | .bootOk | .bootFail | .waitRun => true

/-- A line is well formed when its command is. -/
def SourceLine.wf (l : SourceLine) : Bool := l.cmd.wf

end Sys2Proof
end

