-- ==== Sys2Proof/Machine/Assembly.lean ====
section
/-! DEFINITION. The spec's source lines (30_encoding.md R67): what inputs a line stands for, and their text form.
Log entry 9 says what the text form takes for granted. -/

namespace Sys2Proof.Machine

/-! ## From lines to inputs -/

/-- The operation a one-step command names, if it names one of format H. -/
def commandInstr : SourceCmd → Option Instr
  | .rdStatus => some .rdStatus
  | .rdDuty => some .rdDuty
  | .rdMillis => some .rdMillis
  | .rdPhase => some .rdPhase
  | .boot t => some (.boot (BitVec.ofNat 1 t))
  | .wrDuty v => some (.wrDuty (BitVec.ofNat 16 v))
  | .clrMillis => some .clrMillis
  | .bootOk => some (.boot 1#1)
  | .bootFail => some (.boot 0#1)
  | .idle | .word _ | .delay _ | .waitRun => none

/-- The command word of a one-step line, if it presents one. -/
def commandWord : SourceCmd → Option CmdWord
  | .word w => some (BitVec.ofNat 20 w)
  | c => (commandInstr c).bind hostWord

/-- A line that takes one step: every command but DELAY and WAIT_RUN, whose number of steps the responses decide. -/
def isOneStep : SourceCmd → Bool
  | .delay _ | .waitRun => false
  | _ => true

/-- The inputs of a well-formed one-step line, `times` steps of them (R67); none for another line. -/
def lineInputs (l : SourceLine) : Option (List Inputs) :=
  if l.wf && isOneStep l.cmd then
    some (List.replicate l.times
      ⟨l.rst, l.msTick, l.pwmTick, (commandWord l.cmd).isSome, (commandWord l.cmd).getD 0#20⟩)
  else none

/-- The host tasks of a line (R67 to R69). DESIGN CHOICE (log entry 9), for R67 lists no pseudo-instruction as a command and
R68 speaks of the tick flags only: an `r` flag before DELAY or WAIT_RUN is dropped, so that none of their steps has
`rst = 1`; `* k` runs them `k` times over; and the tick flags of every line are left to the environment. -/
def lineTasks (l : SourceLine) : List HostTask :=
  List.replicate l.times (match l.cmd with
    | .delay n => .delay (BitVec.ofNat 32 n)
    | .waitRun => .waitRun
    | c => .line l.rst (commandWord c))

/-! ## The text form -/

/-- The words of a line, separated by spaces. -/
def splitWords (cs : List Char) : List (List Char) :=
  (cs.foldr (fun c ws => if c = ' ' then [] :: ws else match ws with
    | [] => [[c]]
    | w :: ws => (c :: w) :: ws) [[]]).filter fun w => !w.isEmpty

/-- The value of a digit in the base. -/
def digitValue (base : Nat) (c : Char) : Option Nat :=
  let n := c.toNat
  let v := if 48 ≤ n ∧ n ≤ 57 then n - 48 else if 65 ≤ n ∧ n ≤ 70 then n - 55
    else if 97 ≤ n ∧ n ≤ 102 then n - 87 else base
  if v < base then some v else none

/-- A string of digits after the value `acc`. -/
def readDigits (base : Nat) : Nat → List Char → Option Nat
  | acc, [] => some acc
  | acc, c :: cs => match digitValue base c with
    | some d => readDigits base (acc * base + d) cs
    | none => none

/-- A number, decimal or `0x` hexadecimal. -/
def readNumber : List Char → Option Nat
  | [] => none
  | ['0', 'x'] => none
  | '0' :: 'x' :: cs => readDigits 16 0 cs
  | cs => readDigits 10 0 cs

/-- `#` introduces an immediate. -/
def readImmediate : List Char → Option Nat
  | '#' :: cs => readNumber cs
  | _ => none

/-- The command of a line. -/
def readCommand : List (List Char) → Option SourceCmd
  | [w] =>
    if w = "-".toList then some .idle
    else if w = "RD_STATUS".toList then some .rdStatus
    else if w = "RD_DUTY".toList then some .rdDuty
    else if w = "RD_MILLIS".toList then some .rdMillis
    else if w = "RD_PHASE".toList then some .rdPhase
    else if w = "CLR_MILLIS".toList then some .clrMillis
    else if w = "BOOT_OK".toList then some .bootOk
    else if w = "BOOT_FAIL".toList then some .bootFail
    else if w = "WAIT_RUN".toList then some .waitRun
    else none
  | [w, a] =>
    if w = "BOOT".toList then (readImmediate a).map .boot
    else if w = "WR_DUTY".toList then (readImmediate a).map .wrDuty
    else if w = "DELAY".toList then (readImmediate a).map .delay
    else if w = ".word".toList then (if a.length = 7 ∧ a.take 2 = "0x".toList then (readNumber a).map .word else none)
    else none
  | _ => none

/-- A word made of flag letters. -/
def isFlags (w : List Char) : Bool := !w.isEmpty && w.all fun c => c = 'r' || c = 'm' || c = 'p'

/-- The words of a line without `* k`, and `k`. -/
def takeTimes (ws : List (List Char)) : Option (List (List Char) × Nat) :=
  match ws.reverse with
  | k :: ['*'] :: rest => (readNumber k).map fun n => (rest.reverse, n)
  | _ => some (ws, 1)

/-- The line of a text, none for a text that is not a well-formed line (R67). The pseudo-instructions of R68 and R69 are read as
commands, with flags and `* k` as any command has them (DESIGN CHOICE, log entry 9). -/
def readLine (text : String) : Option SourceLine :=
  match takeTimes (splitWords text.toList) with
  | none => none
  | some (ws, k) =>
    let f := match ws with
      | w :: _ => if isFlags w then w else []
      | [] => []
    let l := (readCommand (if f.isEmpty then ws else ws.drop 1)).map fun c =>
      (⟨f.contains 'r', f.contains 'm', f.contains 'p', c, k⟩ : SourceLine)
    l.filter (·.wf)

end Sys2Proof.Machine
end

