-- ==== Sys2Proof/Safety.lean ====
section
/-! DEFINITION. The terms claims are stated in: the invariants of 10_state.md R29, who may write what (R27), which
command is permitted when (60_exceptions.md R124), reachable states, and counts over a run. -/

namespace Sys2Proof.Machine

/-! ## Invariants -/

/-- The seven clauses of 10_state.md R29. -/
structure Block.Legal (p : Params) (b : Block) : Prop where
  /-- (a) -/
  phaseInRange : b.phaseCounter.toNat < p.wavePeriod
  /-- (b) -/
  iterInRange : b.iterCount.toNat ≤ p.armIterations
  /-- (c) -/
  idleIsInitial : b.seqState = .idle →
    b.iterCount = 0 ∧ b.seqPhase = .drive ∧ b.phaseCounter = 0 ∧ b.outLine = false
  /-- (d) -/
  haltedIsInitial : b.seqState = .halted →
    b.iterCount = 0 ∧ b.seqPhase = .drive ∧ b.phaseCounter = 0 ∧ b.outLine = false
  /-- (e) -/
  armingPhase : b.seqState = .arming → b.phaseCounter = 0
  /-- (f) -/
  runIsArmed : b.seqState = .run → b.iterCount.toNat = p.armIterations ∧ b.seqPhase = .drive
  /-- (g), first half -/
  driveLine : b.seqState = .arming → b.seqPhase = .drive → b.outLine = decide (b.iterCount.toNat % 2 = 1)
  /-- (g), second half -/
  holdLine : b.seqState = .arming → b.seqPhase = .hold → b.outLine = decide (b.iterCount.toNat % 2 = 0)

/-- The invariant every step keeps: R29 and two more clauses that R29 needs to be kept by the hold case and that 42_arming_sequencer.md
R107 needs (DEDUCED, log entry 11). -/
structure Block.Inv (p : Params) (b : Block) : Prop extends Block.Legal p b where
  /-- A hold belongs to an iteration not yet completed. -/
  holdCounts : b.seqState = .arming → b.seqPhase = .hold → b.iterCount.toNat < p.armIterations
  /-- After a hold, until the next drive, ElapsedMillis is at least that hold's target. -/
  holdWasServed : b.seqState = .arming → b.seqPhase = .drive → b.iterCount ≠ 0 → b.holdTarget p ≤ b.elapsedMillis.toNat

/-- A state a run reaches: it starts in the block's reset state, with any inputs scheduled, and each step goes on. -/
inductive Reachable : State → Prop where
  | start (s : State) : s.block = Block.reset → Reachable s
  | step (s t : State) : Reachable s → Machine.step s = .next t → Reachable t

/-! ## Ownership (10_state.md R27) -/

/-- The seven elements. -/
inductive Element where
  | phaseCounter
  | dutyTime
  | elapsedMillis
  | outLine
  | seqState
  | seqPhase
  | iterCount
  deriving DecidableEq, Repr

/-- The element has the same value in both blocks. -/
abbrev Element.Same (e : Element) (b c : Block) : Prop :=
  match e with
  | .phaseCounter => b.phaseCounter = c.phaseCounter
  | .dutyTime => b.dutyTime = c.dutyTime
  | .elapsedMillis => b.elapsedMillis = c.elapsedMillis
  | .outLine => b.outLine = c.outLine
  | .seqState => b.seqState = c.seqState
  | .seqPhase => b.seqPhase = c.seqPhase
  | .iterCount => b.iterCount = c.iterCount

/-- The column "Written by" of R27: the operation, begun on the block `b`, may write the element. -/
def MayWrite (p : Params) (i : Instr) (b : Block) (e : Element) : Prop :=
  match i with
  | .msTick => e = .elapsedMillis
  | .pwmTick => b.seqState = .run ∧ (e = .phaseCounter ∨ e = .outLine)
  | .seqStep => b.seqState = .arming ∧
    -- the finish case, the drive case, the hold case
    ((b.seqPhase = .drive ∧ b.iterCount.toNat = p.armIterations ∧ e = .seqState) ∨
      (b.seqPhase = .drive ∧ b.iterCount.toNat ≠ p.armIterations ∧
        (e = .outLine ∨ e = .elapsedMillis ∨ e = .seqPhase)) ∨
      (b.seqPhase = .hold ∧ (e = .iterCount ∨ e = .seqPhase)))
  | .rdStatus | .rdDuty | .rdMillis | .rdPhase => False
  | .boot _ => b.seqState = .idle ∧ (e = .seqState ∨ e = .seqPhase ∨ e = .iterCount)
  | .wrDuty _ => b.seqState ≠ .halted ∧ e = .dutyTime
  | .clrMillis => (b.seqState = .idle ∨ b.seqState = .run) ∧ e = .elapsedMillis

/-- The table of 60_exceptions.md R124: is the host command performed in the mode? (The tick operations and SEQ_STEP are no host
commands and are never answered.) -/
def permitted (i : Instr) (m : SeqState) : Bool :=
  match i with
  | .boot _ => m = .idle
  | .wrDuty _ => m ≠ .halted
  | .clrMillis => m = .idle ∨ m = .run
  | .rdStatus | .rdDuty | .rdMillis | .rdPhase | .msTick | .pwmTick | .seqStep => true

/-! ## Counts over a run -/

/-- The number of `MS_TICK`s in a sequence of inputs. -/
def msTicks (is : List Inputs) : Nat := is.countP (·.msTick)

/-- No input of the sequence resets the block. -/
abbrev NoReset (is : List Inputs) : Prop := ∀ i ∈ is, i.rst = false

/-- A block that BOOT #1 has just started from a legal IDLE state: arming has done nothing yet. -/
abbrev Block.ArmingBegins (b : Block) : Prop :=
  b.seqState = .arming ∧ b.seqPhase = .drive ∧ b.iterCount = 0 ∧ b.outLine = false ∧ b.phaseCounter = 0

/-- The number of steps of the run in which the sequencer enters a hold: the drive cases. -/
def driveCases (p : Params) : Block → List Inputs → Nat
  | _, [] => 0
  | b, i :: is =>
    let c := (clockStep p b i).1
    (if b.seqState = .arming ∧ b.seqPhase = .drive ∧ c.seqState = .arming ∧ c.seqPhase = .hold then 1 else 0)
      + driveCases p c is

/-- The number of steps of the run in which the sequencer ends a hold: the completed iterations. -/
def holdsEnded (p : Params) : Block → List Inputs → Nat
  | _, [] => 0
  | b, i :: is =>
    let c := (clockStep p b i).1
    (if b.seqState = .arming ∧ b.seqPhase = .hold ∧ c.seqState = .arming ∧ c.seqPhase = .drive then 1 else 0)
      + holdsEnded p c is

/-- The number of `MS_TICK`s of the run that count toward a hold: those in a step that starts in a hold not yet served. A
tick in a drive step is not counted (42_arming_sequencer.md R115). -/
def countedTicks (p : Params) : Block → List Inputs → Nat
  | _, [] => 0
  | b, i :: is =>
    (if i.msTick ∧ b.seqState = .arming ∧ b.seqPhase = .hold ∧ b.elapsedMillis.toNat < b.holdTarget p then 1 else 0)
      + countedTicks p (clockStep p b i).1 is

end Sys2Proof.Machine
end

