-- ==== Sys2Proof/Certificates/Slice0/Obligations.lean ====
section
/-! DEFINITION. The statements for the provers, in the order of the spec's files. A statement over `exec` or `step` is
about the block built with `Config.params`, which is any parameter set R8 admits; a statement over `clockStep` and
`runBlock` holds for the parameter sets it names, and `StepIsTheClockStepFunction` carries it to `step`. -/

open Sys2Proof Sys2Proof.Machine

/-! ## 00_scope.md -/

/-- R14: a step is reset alone, or the selected operations one after another, each on the state the previous one left:
MS_TICK, PWM_TICK, SEQ_STEP if ARMING after the ticks, the host command decoded from `h_cmd`. Around them the step takes
the cycle's inputs (`beginCycle`). -/
def Obligations.StepRunsTheDecodedOperations : Prop :=
  ∀ s : State,
    (s.nextInputs.rst = true → step s = .next { s.beginCycle with block := Block.reset }) ∧
    (s.nextInputs.rst = false → ∃ s1 s2 s3 s4 : State,
      (if s.nextInputs.msTick then exec .msTick s.beginCycle = .next s1 else s1 = s.beginCycle) ∧
      (if s.nextInputs.pwmTick then exec .pwmTick s1 = .next s2 else s2 = s1) ∧
      (if s2.block.seqState = .arming then exec .seqStep s2 = .next s3 else s3 = s2) ∧
      (if s.nextInputs.hValid then
        (∀ c, decodeHost s.nextInputs.hCmd = .ok c → exec c s3 = .next s4) ∧
        (∀ r, decodeHost s.nextInputs.hCmd = .error r → s4 = { s3 with response := some ⟨.errReserved, 0⟩ })
      else s4 = s3) ∧
      step s = .next s4)

/-- R13: the machine's step is the total function `Params -> State -> Inputs -> State x Outputs` of the spec, at
`Config.params`. -/
def Obligations.StepIsTheClockStepFunction : Prop :=
  ∀ s : State, ∃ t : State, step s = .next t ∧
    (t.block, t.outputs) = clockStep Config.params s.block s.nextInputs ∧
    t.inputs = s.inputs.tail ∧ t.cycle = s.cycle + 1

/-- R15: a cycle without reset and without a reserved word is a run of the machine in which whole operations happen one
at a time; at most four of them. -/
def Obligations.CycleIsASequenceOfOperations : Prop :=
  ∀ s : State, s.nextInputs.rst = false →
    (s.nextInputs.hValid = true → ∃ c, decodeHost s.nextInputs.hCmd = .ok c) →
    ∃ ops : List Instr, ops.length ≤ 4 ∧ step s = runOps ops s.beginCycle

/-- R13, R14: `h_cmd` is read only when `h_valid = 1`, and in a reset step no input but `rst` is read. -/
def Obligations.UnreadInputsDoNotMatter : Prop :=
  ∀ (s : State) (i j : Inputs),
    (i.hValid = false → step (s.present { i with hCmd := j.hCmd }) = step (s.present i)) ∧
    (i.rst = true → j.rst = true → step (s.present i) = step (s.present j))

/-! ## 10_state.md -/

/-- R22: the only transitions of SeqState are those of BOOT from IDLE, of SEQ_STEP's finish case, and of reset. -/
def Obligations.ModesChangeOnlyByBootFinishAndReset : Prop :=
  ∀ s t : State, step s = .next t →
    (s.nextInputs.rst = true → t.block.seqState = .idle) ∧
    (s.nextInputs.rst = false →
      (s.block.seqState = .idle → t.block.seqState =
        if s.nextInputs.hValid = true ∧ decodeHost s.nextInputs.hCmd = .ok (.boot 1#1) then .arming
        else if s.nextInputs.hValid = true ∧ decodeHost s.nextInputs.hCmd = .ok (.boot 0#1) then .halted
        else .idle) ∧
      (s.block.seqState = .arming → t.block.seqState =
        if s.block.seqPhase = .drive ∧ s.block.iterCount.toNat = Config.params.armIterations then .run else .arming) ∧
      (s.block.seqState = .run → t.block.seqState = .run) ∧
      (s.block.seqState = .halted → t.block.seqState = .halted))

/-- R27: an operation changes only the elements the ownership table lets it write, and only in the modes and cases
named there or in the operation's own rule (R101 for BOOT, R104 for SEQ_STEP); no operation touches the scheduled inputs
or the cycle number. That SEQ_STEP run outside ARMING, which no step does, changes nothing is the model's choice
(DEDUCED, log entry 5). -/
def Obligations.OperationsWriteOnlyWhatTheyOwn : Prop :=
  ∀ (i : Instr) (s t : State), exec i s = .next t →
    (∀ e : Element, ¬ MayWrite Config.params i s.block e → e.Same t.block s.block) ∧
    t.inputs = s.inputs ∧ t.cycle = s.cycle

/-- The model's invariant (R29 with the two clauses of log entry 11) holds right after reset. -/
def Obligations.InvariantHoldsAtReset : Prop := State.reset.block.Inv Config.params

/-- Every step keeps the invariant, from every state that has it and whatever the inputs. -/
def Obligations.StepKeepsInvariant : Prop :=
  ∀ s t : State, s.block.Inv Config.params → step s = .next t → t.block.Inv Config.params

/-- R29: its seven clauses hold in every state reachable from reset. -/
def Obligations.ReachableStatesAreLegal : Prop := ∀ s : State, Reachable s → s.block.Legal Config.params

/-- R35: the four host reads together determine every element of the state. -/
def Obligations.ReadsExposeTheWholeState : Prop :=
  ∀ b c : Block, (∀ r : HostReg, b.readReg r = c.readReg r) → b = c

/-- R28, R122: a response is an output and is not stored: no operation and no step reads the response of an earlier one or
carries it on. -/
def Obligations.ResponsesAreNotStored : Prop :=
  ∀ (s : State) (r : Option Response),
    (∀ i : Instr, exec i { s with response := r } = exec i s) ∧ step { s with response := r } = step s ∧
    (∀ (i : Instr) (t : State), i.format ≠ .host → exec i s = .next t → t.response = none)

/-! ## 20_memory.md -/

/-- R49: a tick in the step of a WR_DUTY reads the old DutyTime; every tick in a later step, until another WR_DUTY or
reset, reads the new one. -/
def Obligations.DutyWriteIsSeenByTheNextTick : Prop :=
  ∀ (p : Params) (b : Block) (i j : Inputs) (v : Word16) (between : List Inputs),
    b.seqState ≠ .halted → i.rst = false → i.hValid = true → decodeHost i.hCmd = .ok (.wrDuty v) →
    NoReset between → (∀ k ∈ between, k.hValid = true → ∀ u, decodeHost k.hCmd ≠ .ok (.wrDuty u)) →
    j.rst = false → j.pwmTick = true →
    let c := (clockStep p b i).1
    let d := runBlock p c between
    (b.seqState = .run → i.pwmTick = true →
      c.outLine = decide (b.phaseCounter.toNat < p.minOffset + b.dutyTime.toNat)) ∧
    c.dutyTime = v ∧
    (d.seqState = .run →
      (clockStep p d j).1.outLine = decide (d.phaseCounter.toNat < p.minOffset + v.toNat))

/-- R50: a host read returns the state after the MS_TICK, PWM_TICK and SEQ_STEP of its own step. -/
def Obligations.ReadSeesItsOwnStep : Prop :=
  ∀ (s t : State) (c : Instr) (r : HostReg),
    (c, r) ∈ [(Instr.rdStatus, HostReg.status), (.rdDuty, .duty), (.rdMillis, .millis), (.rdPhase, .phase)] →
    s.nextInputs.rst = false → s.nextInputs.hValid = true → hostWord c = some s.nextInputs.hCmd →
    step s = .next t →
    t.block = afterSequencer Config.params s.block s.nextInputs ∧
    t.response = some ⟨.okay, (afterSequencer Config.params s.block s.nextInputs).readReg r⟩

/-! ## 30_encoding.md -/

/-- R66: the words of the defined operations, and that encoding and decoding are inverse to each other on every operation and
on every non-reserved host word. -/
def Obligations.EncodeAndDecodeAreInverse : Prop :=
  (∀ i : Instr, decode (encode i) = Except.ok [i]) ∧
  (∀ (w : CmdWord) (i : Instr), decodeHost w = .ok i → encode i = .host w) ∧
  hostWord .rdStatus = some 0x00000#20 ∧ hostWord .rdDuty = some 0x10000#20 ∧ hostWord .rdMillis = some 0x20000#20 ∧
  hostWord .rdPhase = some 0x30000#20 ∧ hostWord .clrMillis = some 0xA0000#20 ∧
  (∀ t : BitVec 1, hostWord (.boot t) = some (BitVec.ofNat 20 (0x80000 + t.toNat))) ∧
  (∀ v : Word16, hostWord (.wrDuty v) = some (BitVec.ofNat 20 (0x90000 + v.toNat)))

/-- R62: a host word decodes to an operation exactly when it matches a row, whichever row it matches. -/
def Obligations.DecodingFollowsAnyMatchingRow : Prop :=
  ∀ (w : CmdWord) (i : Instr),
    decodeHost w = .ok i ↔ ∃ r ∈ hostRows, w &&& r.mask = r.bits ∧ r.operation w.data = i

/-- R64: a host word is reserved exactly when it falls under one of the cases (a) to (f), and a reserved word presented in any
mode changes no state and is answered (ERR_RESERVED, 0). -/
def Obligations.ReservedWordsAreRefused : Prop :=
  (∀ w : CmdWord, (∃ k, decodeHost w = .error k) ↔
    (w.toNat < 0x40000 ∧ w.toNat % 0x10000 ≠ 0) ∨ (0x40000 ≤ w.toNat ∧ w.toNat < 0x80000) ∨
    (0x80002 ≤ w.toNat ∧ w.toNat < 0x90000) ∨ (0xA0000 < w.toNat ∧ w.toNat < 0xB0000) ∨
    (0xB0000 ≤ w.toNat ∧ w.toNat < 0xC0000) ∨ 0xC0000 ≤ w.toNat) ∧
  (∀ (w : CmdWord) (k : Reserved) (s : State), decodeHost w = .error k →
    hostCommand w s = .next { s with response := some ⟨.errReserved, 0⟩ })

/-- R63: the seven H rows cover 65543 of the 1048576 host words. -/
def Obligations.DefinedHostWordsNumber65543 : Prop :=
  (Finset.univ.filter fun w : CmdWord => (decodeHost w).isOk = true).card = 65543

/-- Words written out bit by bit from R58, R60, R61 and R63 decode to the operations they stand for. -/
def Obligations.WrittenOutWordsDecode : Prop :=
  decodeHost 0b0_010_0000000000000000#20 = .ok .rdMillis ∧
  decodeHost 0b1_001_0000000000110010#20 = .ok (.wrDuty 50#16) ∧
  decodeHost 0b1_000_0000000000000001#20 = .ok (.boot 1#1) ∧
  decodeHost 0b1_000_0000000000000010#20 = .error .bootWithData ∧
  decodeEvent 0b11#2 = [.msTick, .pwmTick] ∧
  decodeSelector SeqState.arming.code = some .seqStep

/-- R69: WAIT_RUN, issued in any mode, is over exactly when at least one of its steps has been made and the block has
reached RUN. -/
def Obligations.WaitRunEndsInRun : Prop :=
  ∀ (p : Params) (b : Block) (ticks : List (Bool × Bool)),
    (runHost p ticks (b, [.waitRun])).2 = [] ↔
      ticks ≠ [] ∧ (runHost p ticks (b, [.waitRun])).1.seqState = .run

/-! ## 40_tick_counter.md -/

/-- R75: MS_TICK, the operation of `ms_tick = 1`, adds 1 to ElapsedMillis, staying at 2^32 - 1, in every mode, and writes
nothing else. -/
def Obligations.MsTickCountsAndSaturates : Prop :=
  (∀ ev : BitVec 2, Instr.msTick ∈ decodeEvent ev ↔ ev.getLsbD 0 = true) ∧
  ∀ s : State, ∃ t : State, exec .msTick s = .next t ∧
    t.block.elapsedMillis.toNat = min (s.block.elapsedMillis.toNat + 1) (2 ^ 32 - 1) ∧
    t = { s with block := { s.block with elapsedMillis := t.block.elapsedMillis }, response := none }

/-- R79: CLR_MILLIS, the word 0xA0000, clears ElapsedMillis and answers OKAY in IDLE and RUN, and is answered ERR_STATE with no state change in
ARMING and HALTED. -/
def Obligations.ClrMillisClearsOrIsRefused : Prop :=
  decodeHost 0xA0000#20 = .ok .clrMillis ∧
  ∀ s : State,
    (s.block.seqState = .idle ∨ s.block.seqState = .run → exec .clrMillis s =
      .next { s with block := { s.block with elapsedMillis := 0 }, response := some ⟨.okay, 0⟩ }) ∧
    (s.block.seqState = .arming ∨ s.block.seqState = .halted → exec .clrMillis s =
      .next { s with response := some ⟨.errState, 0⟩ })

/-- R78, R94, R95: the reads of MILLIS, DUTY and PHASE, under their words, answer OKAY with the element's value as a 32-bit number, in every
mode, and change nothing. -/
def Obligations.PlainReadsReturnTheirElement : Prop :=
  decodeHost 0x20000#20 = .ok .rdMillis ∧ decodeHost 0x10000#20 = .ok .rdDuty ∧
  decodeHost 0x30000#20 = .ok .rdPhase ∧
  ∀ s : State, ∃ m d q : Word32,
    exec .rdMillis s = .next { s with response := some ⟨.okay, m⟩ } ∧ m.toNat = s.block.elapsedMillis.toNat ∧
    exec .rdDuty s = .next { s with response := some ⟨.okay, d⟩ } ∧ d.toNat = s.block.dutyTime.toNat ∧
    exec .rdPhase s = .next { s with response := some ⟨.okay, q⟩ } ∧ q.toNat = s.block.phaseCounter.toNat

/-- R81: when ElapsedMillis is cleared in a step with `ms_tick = 1`, by CLR_MILLIS or by the drive case, the step ends
with 0. -/
def Obligations.ClearWinsOverTheTick : Prop :=
  ∀ s t : State, step s = .next t → s.nextInputs.rst = false → s.nextInputs.msTick = true →
    ((s.nextInputs.hValid = true ∧ s.nextInputs.hCmd = 0xA0000#20 ∧
        (s.block.seqState = .idle ∨ s.block.seqState = .run)) ∨
      (s.block.seqState = .arming ∧ s.block.seqPhase = .drive ∧
        s.block.iterCount.toNat ≠ Config.params.armIterations)) →
    t.block.elapsedMillis = 0

/-- R82 (a) to (d): `DELAY #n` issued in IDLE or RUN is over exactly when at least one test has been made and at least
`n` MS_TICKs have come in steps after the clearing step. -/
def Obligations.DelayWaitsForItsTicks : Prop :=
  ∀ (p : Params) (b : Block) (n : Word32) (first : Bool × Bool) (later : List (Bool × Bool)),
    b.seqState = .idle ∨ b.seqState = .run →
    ((runHost p (first :: later) (b, [.delay n])).2 = [] ↔
      later ≠ [] ∧ n.toNat ≤ later.countP (·.1))

/-! ## 41_pwm_generator.md -/

/-- R85, R86: in RUN, PWM_TICK, the operation of `pwm_tick = 1`, drives the line high iff PhaseCounter < MIN_OFFSET + DutyTime and then advances PhaseCounter,
wrapping at WAVE_PERIOD, and writes nothing else; in the other modes it changes nothing. -/
def Obligations.PwmTickDrivesTheLine : Prop :=
  (∀ ev : BitVec 2, Instr.pwmTick ∈ decodeEvent ev ↔ ev.getLsbD 1 = true) ∧
  ∀ s : State,
    (s.block.seqState = .run → ∃ t : State, exec .pwmTick s = .next t ∧
      (t.block.outLine = true ↔
        s.block.phaseCounter.toNat < Config.params.minOffset + s.block.dutyTime.toNat) ∧
      t.block.phaseCounter.toNat =
        (if Config.params.wavePeriod ≤ s.block.phaseCounter.toNat + 1 then 0 else s.block.phaseCounter.toNat + 1) ∧
      t = { s with block := { s.block with
              outLine := t.block.outLine, phaseCounter := t.block.phaseCounter }, response := none }) ∧
    (s.block.seqState ≠ .run → exec .pwmTick s = .next { s with response := none })

/-- R88: with DutyTime at or above DUTY_MAX every tick drives the line high; with DUTY_MAX - 1 the only low tick is the last of
the period. -/
def Obligations.DutyAtItsBoundIsAlwaysHigh : Prop :=
  ∀ s : State, s.block.seqState = .run → s.block.phaseCounter.toNat < Config.params.wavePeriod →
    ∃ t : State, exec .pwmTick s = .next t ∧
      (Config.params.dutyMax ≤ s.block.dutyTime.toNat → t.block.outLine = true) ∧
      (s.block.dutyTime.toNat + 1 = Config.params.dutyMax →
        (t.block.outLine = false ↔ s.block.phaseCounter.toNat + 1 = Config.params.wavePeriod))

/-- R90, R91: in RUN, whatever host traffic and millisecond ticks come with them, but no reset and no write of another DutyTime, `k`
fast ticks bring PhaseCounter to `(p0 + k) mod WAVE_PERIOD`, and the line is as tick `(p0 + k - 1) mod WAVE_PERIOD` of the
period drives it: high iff below `min(MIN_OFFSET + d, WAVE_PERIOD)`. -/
def Obligations.WaveformIsPeriodicUnderTraffic : Prop :=
  ∀ (p : Params) (b : Block) (is : List Inputs), p.wf → b.seqState = .run → b.phaseCounter.toNat < p.wavePeriod →
    NoReset is →
    (∀ i ∈ is, i.hValid = true → ∀ v, decodeHost i.hCmd = .ok (.wrDuty v) → v = b.dutyTime) →
    let c := runBlock p b is
    let k := is.countP (·.pwmTick)
    c.seqState = .run ∧ c.dutyTime = b.dutyTime ∧
    c.phaseCounter.toNat = (b.phaseCounter.toNat + k) % p.wavePeriod ∧
    (k = 0 → c.outLine = b.outLine) ∧
    (0 < k → c.outLine = decide
      ((b.phaseCounter.toNat + (k - 1)) % p.wavePeriod < min (p.minOffset + b.dutyTime.toNat) p.wavePeriod))

/-- R93: WR_DUTY, the word 0x90000 + v, stores its operand unchecked and answers OKAY in IDLE, ARMING and RUN, and is answered ERR_STATE with no state
change in HALTED. -/
def Obligations.WrDutyStoresOrIsRefused : Prop :=
  ∀ (s : State) (v : Word16),
    decodeHost (BitVec.ofNat 20 (0x90000 + v.toNat)) = .ok (.wrDuty v) ∧
    (s.block.seqState ≠ .halted → exec (.wrDuty v) s =
      .next { s with block := { s.block with dutyTime := v }, response := some ⟨.okay, 0⟩ }) ∧
    (s.block.seqState = .halted → exec (.wrDuty v) s = .next { s with response := some ⟨.errState, 0⟩ })

/-! ## 42_arming_sequencer.md -/

/-- R101: BOOT, the word 0x80000 + t, in IDLE starts arming (t = 1) or raises Halt(E_TIMEBASE), which sets SeqState to HALTED and nothing
else (t = 0), answered OKAY either way; in the other modes it is answered ERR_STATE with no state change. -/
def Obligations.BootArmsHaltsOrIsRefused : Prop :=
  decodeHost 0x80000#20 = .ok (.boot 0#1) ∧ decodeHost 0x80001#20 = .ok (.boot 1#1) ∧
  ∀ s : State,
    (s.block.seqState = .idle → exec (.boot 1#1) s = .next { s with
      block := { s.block with seqState := .arming, seqPhase := .drive, iterCount := 0 }, response := some ⟨.okay, 0⟩ }) ∧
    (s.block.seqState = .idle → exec (.boot 0#1) s = .next { s with
      block := { s.block with seqState := .halted }, response := some ⟨.okay, 0⟩ }) ∧
    (∀ t : BitVec 1, s.block.seqState ≠ .idle → exec (.boot t) s = .next { s with response := some ⟨.errState, 0⟩ })

/-- R104: SEQ_STEP, selected by SeqState = ARMING, and its cases in ARMING: finish, drive, hold with the target the line
chooses (over or not). Nothing is said of the new IterCount where adding 1 leaves its 16 bits, which no run reaches. -/
def Obligations.SeqStepDrivesHoldsOrFinishes : Prop :=
  (∀ m : SeqState, decodeSelector m.code = some .seqStep ↔ m = .arming) ∧
  ∀ s : State, s.block.seqState = .arming →
    (s.block.seqPhase = .drive → s.block.iterCount.toNat = Config.params.armIterations →
      exec .seqStep s = .next { s with block := { s.block with seqState := .run }, response := none }) ∧
    (s.block.seqPhase = .drive → s.block.iterCount.toNat ≠ Config.params.armIterations →
      exec .seqStep s = .next { s with block := { s.block with
        outLine := !s.block.outLine, elapsedMillis := 0, seqPhase := .hold }, response := none }) ∧
    (s.block.seqPhase = .hold →
      (if s.block.outLine then Config.params.armHighMs else Config.params.armLowMs) ≤ s.block.elapsedMillis.toNat →
      ∃ n : Word16, (s.block.iterCount.toNat < 65535 → n.toNat = s.block.iterCount.toNat + 1) ∧
        exec .seqStep s = .next { s with
          block := { s.block with iterCount := n, seqPhase := .drive }, response := none }) ∧
    (s.block.seqPhase = .hold →
      s.block.elapsedMillis.toNat < (if s.block.outLine then Config.params.armHighMs else Config.params.armLowMs) →
      exec .seqStep s = .next { s with response := none })

/-- R107: the finish case sets SeqState to RUN and nothing else, and in every state with the invariant it leaves the line low,
PhaseCounter 0, SeqPhase DRIVE, IterCount at ARM_ITERATIONS and ElapsedMillis at least ARM_LOW_MS. -/
def Obligations.FinishCaseLeavesTheTerminalState : Prop :=
  ∀ s : State, s.block.Inv Config.params → s.block.seqState = .arming → s.block.seqPhase = .drive →
    s.block.iterCount.toNat = Config.params.armIterations →
    ∃ t : State, exec .seqStep s = .next t ∧
      t = { s with block := { s.block with seqState := .run }, response := none } ∧
      t.block.outLine = false ∧ t.block.phaseCounter = 0 ∧ Config.params.armLowMs ≤ t.block.elapsedMillis.toNat

/-- R109: RD_STATUS, the word 0x00000, answers OKAY with the fields of STATUS in their places, in every mode, and changes nothing. -/
def Obligations.RdStatusReturnsTheFields : Prop :=
  decodeHost 0x00000#20 = .ok .rdStatus ∧
  ∀ s : State, ∃ d : Word32, exec .rdStatus s = .next { s with response := some ⟨.okay, d⟩ } ∧
    d.toNat = (match s.block.seqState with | .idle => 0 | .arming => 1 | .run => 2 | .halted => 3)
      + (match s.block.seqPhase with | .drive => 0 | .hold => 4)
      + (if s.block.seqState = .run then 8 else 0) + (if s.block.outLine then 16 else 0)
      + 65536 * s.block.iterCount.toNat

/-- R107, R111, R112, R97: the step in which RUN is entered leaves the line low; it stays low until the first fast tick after it, and that
tick drives it high and finds PhaseCounter 0. -/
def Obligations.HandOverIsWithoutAGlitch : Prop :=
  ∀ (p : Params) (b : Block) (i j : Inputs) (waiting : List Inputs), p.wf → b.Inv p → b.seqState = .arming →
    (clockStep p b i).1.seqState = .run → NoReset waiting → (∀ k ∈ waiting, k.pwmTick = false) →
    j.rst = false → j.pwmTick = true →
    let c := (clockStep p b i).1
    let d := runBlock p c waiting
    c.outLine = false ∧ (clockStep p b i).2.pwmOut = false ∧ c.phaseCounter = 0 ∧
    d.outLine = false ∧ d.phaseCounter = 0 ∧
    (clockStep p d j).1.outLine = true ∧ (clockStep p d j).1.phaseCounter = 1

/-- R114, R115: from BOOT #1 to RUN, however the ticks come and whatever the host does short of reset, the drive case runs
ARM_ITERATIONS times, the hold case completes ARM_ITERATIONS times, and (ARM_ITERATIONS / 2) x (ARM_HIGH_MS + ARM_LOW_MS)
millisecond ticks are counted. -/
def Obligations.ArmingCountsExactly : Prop :=
  ∀ (p : Params) (b : Block) (is : List Inputs), p.wf → b.ArmingBegins → NoReset is →
    (runBlock p b is).seqState = .run →
    driveCases p b is = p.armIterations ∧ holdsEnded p b is = p.armIterations ∧
    countedTicks p b is = p.armIterations / 2 * (p.armHighMs + p.armLowMs)

/-- R115: a hold with target n >= 1 completes in the step of the n-th MS_TICK after its drive step and not before, a hold with
target 0 in the step after its drive step; the line does not change. (The new IterCount is a 16-bit sum: log entry 6.) -/
def Obligations.HoldEndsAtItsLastTick : Prop :=
  ∀ (p : Params) (b : Block) (is : List Inputs) (j : Inputs), p.wf → b.seqState = .arming → b.seqPhase = .hold →
    b.elapsedMillis = 0 → NoReset is → j.rst = false →
    (msTicks is < b.holdTarget p →
      (runBlock p b is).seqPhase = .hold ∧ (runBlock p b is).iterCount = b.iterCount ∧
      (runBlock p b is).outLine = b.outLine) ∧
    (msTicks is + 1 = b.holdTarget p → j.msTick = true →
      (runBlock p b (is ++ [j])).seqPhase = .drive ∧ (runBlock p b (is ++ [j])).iterCount = b.iterCount + 1 ∧
      (runBlock p b (is ++ [j])).outLine = b.outLine) ∧
    (b.holdTarget p = 0 →
      (clockStep p b j).1.seqPhase = .drive ∧ (clockStep p b j).1.iterCount = b.iterCount + 1 ∧
      (clockStep p b j).1.outLine = b.outLine)

/-- R115, R159: with a millisecond tick in every step and no reset, arming ends, after exactly the steps its iterations take: one drive
step and as many hold steps as the target asks for (at least one) each, and the finish step. -/
def Obligations.ArmingEndsWhileTicksCome : Prop :=
  ∀ (p : Params) (b : Block) (is : List Inputs), p.wf → b.ArmingBegins → NoReset is → (∀ i ∈ is, i.msTick = true) →
    let n := p.armIterations / 2 * ((1 + max 1 p.armHighMs) + (1 + p.armLowMs)) + 1
    (is.length < n → (runBlock p b is).seqState = .arming) ∧
    (n ≤ is.length → (runBlock p b is).seqState = .run)

/-- R146: with BOOT #1 and no millisecond ticks the block stays in ARMING, in the first hold whose target is at least 1. -/
def Obligations.ArmingWaitsWithoutTicks : Prop :=
  ∀ (p : Params) (b : Block) (is : List Inputs), p.wf → b.ArmingBegins → NoReset is → (∀ i ∈ is, i.msTick = false) →
    (runBlock p b is).seqState = .arming ∧
    (1 ≤ p.armHighMs → 1 ≤ is.length → (runBlock p b is).outLine = true ∧ (runBlock p b is).seqPhase = .hold) ∧
    (p.armHighMs = 0 → 3 ≤ is.length → (runBlock p b is).outLine = false ∧ (runBlock p b is).seqPhase = .hold)

/-! ## 60_exceptions.md -/

/-- R121: in HALTED, with no reset, only ElapsedMillis changes and only by MS_TICK; the line and PhaseCounter stay 0; BOOT,
WR_DUTY and CLR_MILLIS are answered ERR_STATE, the reads OKAY; HALTED is not left. -/
def Obligations.HaltedOnlyCountsMillis : Prop :=
  ∀ s : State, s.block.Legal Config.params → s.block.seqState = .halted → s.nextInputs.rst = false →
    ∃ t : State, step s = .next t ∧
      t.block = { s.block with elapsedMillis := t.block.elapsedMillis } ∧
      t.block.elapsedMillis.toNat = (if s.nextInputs.msTick
        then min (s.block.elapsedMillis.toNat + 1) (2 ^ 32 - 1) else s.block.elapsedMillis.toNat) ∧
      t.pwmOut = false ∧ t.block.phaseCounter = 0 ∧
      (∀ c, s.nextInputs.hValid = true → decodeHost s.nextInputs.hCmd = .ok c →
        (∀ v, c = .boot v ∨ c = .clrMillis → t.response = some ⟨.errState, 0⟩) ∧
        (∀ v, c = .wrDuty v → t.response = some ⟨.errState, 0⟩) ∧
        (c = .rdStatus ∨ c = .rdDuty ∨ c = .rdMillis ∨ c = .rdPhase → ∃ d, t.response = some ⟨.okay, d⟩))

/-- R122: a step answers exactly when it has a host command and no reset; the codes are 0, 1 and 2 on `h_resp`; an error
response has read data 0; with no response both outputs read 0. -/
def Obligations.EveryCommandGetsOneResponse : Prop :=
  ∀ s t : State, step s = .next t →
    (t.response.isSome = true ↔ s.nextInputs.hValid = true ∧ s.nextInputs.rst = false) ∧
    (∀ r, t.response = some r → r.code.isError = true → r.data = 0) ∧
    (∀ r, t.response = some r → t.outputs.hRdata = r.data ∧
      t.outputs.hResp.toNat = (match r.code with | .okay => 0 | .errReserved => 1 | .errState => 2)) ∧
    (t.response = none → t.outputs.hResp = 0 ∧ t.outputs.hRdata = 0)

/-- R124: a host command is answered OKAY in the modes the table permits it in, and ERR_STATE with no state change in the others. -/
def Obligations.CommandsFollowThePermissionTable : Prop :=
  ∀ (c : Instr) (s : State), c.format = .host → ∃ (t : State) (r : Response),
    exec c s = .next t ∧ t.response = some r ∧
    (permitted c s.block.seqState = true → r.code = .okay) ∧
    (permitted c s.block.seqState = false → r = ⟨.errState, 0⟩ ∧ t.block = s.block)

/-- R129: the order of MS_TICK and PWM_TICK cannot be observed. -/
def Obligations.TickOrderIsNotObservable : Prop :=
  ∀ s : State, runOps [.msTick, .pwmTick] s = runOps [.pwmTick, .msTick] s

/-! ## 70_reset_and_hazards.md -/

/-- R141: a step with `rst = 1` sets the whole state to the reset values, whatever the other inputs; no response, and `pwm_out` is
0. -/
def Obligations.ResetStepSetsEveryElement : Prop :=
  ∀ s : State, s.nextInputs.rst = true → ∃ t : State, step s = .next t ∧
    t.block.phaseCounter = 0 ∧ t.block.dutyTime = 0 ∧ t.block.elapsedMillis = 0 ∧ t.block.outLine = false ∧
    t.block.seqState = .idle ∧ t.block.seqPhase = .drive ∧ t.block.iterCount = 0 ∧
    t.response = none ∧ t.pwmOut = false

/-- R143: after a reset step, from any state, each of the four reads answers (OKAY, 0). -/
def Obligations.ReadsAfterResetReturnZero : Prop :=
  ∀ (s t : State) (c : Instr) (w : CmdWord), s.nextInputs.rst = true → step s = .next t →
    c = .rdStatus ∨ c = .rdDuty ∨ c = .rdMillis ∨ c = .rdPhase → hostWord c = some w →
    ∃ u : State, step (t.present (inputsOfCommand w)) = .next u ∧ u.response = some ⟨.okay, 0⟩

/-- R148, R103: the reference host with a failed timebase halts the block: from its second step on SeqState is HALTED and the line
is low, whatever the ticks. (That BOOT comes in the second step, the external set-up taking none, is the model's choice:
log entry 8.) -/
def Obligations.FailedTimebaseHaltsForEver : Prop :=
  ∀ (p : Params) (b : Block) (maxRaw : Nat) (raw : Nat → Nat) (ticks : List (Bool × Bool)), 2 ≤ ticks.length →
    let c := (runReference p false maxRaw raw ticks b).1
    c.seqState = .halted ∧ c.outLine = false ∧ c.phaseCounter = 0

/-- R148: the reference host has no exit: in every step after its reset step, however long the run, it presents a command and no
reset. (That the external set-up and the conversion take no step is the model's choice: log entry 8.) -/
def Obligations.ReferenceHostNeverStops : Prop :=
  ∀ (p : Params) (b : Block) (timebaseOk : Bool) (maxRaw : Nat) (raw : Nat → Nat) (ticks : List (Bool × Bool))
    (next : Bool × Bool), ticks ≠ [] →
    let i := (runReference p timebaseOk maxRaw raw ticks b).2.inputs (referenceLoop maxRaw raw) next
    i.hValid = true ∧ i.rst = false

/-- R55: with samples in `0 .. max_raw` the reference host keeps DutyTime in 0 to 100, from its reset step on. -/
def Obligations.ReferenceHostWritesPercentages : Prop :=
  ∀ (p : Params) (b : Block) (timebaseOk : Bool) (maxRaw : Nat) (raw : Nat → Nat) (ticks : List (Bool × Bool)),
    ticks ≠ [] → (∀ k, raw k ≤ maxRaw) →
    (runReference p timebaseOk maxRaw raw ticks b).1.dutyTime.toNat ≤ 100

/-- R160: no state is final: every step, from every state, goes on. -/
def Obligations.NoStateIsFinal : Prop := ∀ s : State, ∃ t : State, step s = .next t
end

