-- ==== Sys2Proof/Laws/Decode.lean ====
section
/-! SUPPORT. The fields of a host word as numbers, what each selector of formats E and A selects, and the rows as numbers. -/

namespace Sys2Proof.Laws

open Sys2Proof.Machine

/-! ## Fields (30_encoding.md R58) -/

theorem isWrite_iff (w : CmdWord) : w.isWrite = true ↔ 0x80000 ≤ w.toNat := by
  have := w.isLt
  simp only [CmdWord.isWrite, BitVec.getLsbD, Nat.testBit, Nat.shiftRight_eq_div_pow]
  simp
  omega

theorem reg_toNat (w : CmdWord) : w.reg.toNat = w.toNat / 65536 % 8 := by
  simp [CmdWord.reg, BitVec.extractLsb'_toNat, Nat.shiftRight_eq_div_pow]

theorem data_toNat (w : CmdWord) : w.data.toNat = w.toNat % 65536 := by
  simp [CmdWord.data, BitVec.extractLsb'_toNat]

/-! ## Formats E and A (R60, R61) -/

theorem decodeEvent_eventVector (i : Inputs) :
    decodeEvent (eventVector i) =
      (if i.msTick then [.msTick] else []) ++ (if i.pwmTick then [.pwmTick] else []) := by
  unfold eventVector
  generalize i.msTick = m, i.pwmTick = p
  revert m p
  decide

theorem decodeSelector_code (m : SeqState) :
    decodeSelector m.code = if m = .arming then some .seqStep else none := by
  cases m <;> decide

/-! ## Rows of format H (R62, R63)

The three masks of the table, as statements about the word's number. -/

theorem accepts_whole (w c : CmdWord) : (w &&& 0xFFFFF#20 == c) = true ↔ w = c := by
  rw [show (0xFFFFF#20) = BitVec.allOnes 20 from rfl, BitVec.and_allOnes]
  exact beq_iff_eq

/-- The cases of a bit number below 20. -/
theorem bit_below_20 {i : Nat} (h : i < 20) : i = 0 ∨ i = 1 ∨ i = 2 ∨ i = 3 ∨ i = 4 ∨ i = 5 ∨ i = 6 ∨ i = 7 ∨
    i = 8 ∨ i = 9 ∨ i = 10 ∨ i = 11 ∨ i = 12 ∨ i = 13 ∨ i = 14 ∨ i = 15 ∨ i = 16 ∨ i = 17 ∨ i = 18 ∨ i = 19 := by
  omega

/-- A mask of the bits `k` to 19 keeps the multiple of `2^k` below the number. -/
theorem and_high_bits (n k : Nat) (h : n < 2 ^ 20) (hk : k = 1 ∨ k = 16) :
    n &&& (2 ^ 20 - 2 ^ k) = n / 2 ^ k * 2 ^ k := by
  have e : n / 2 ^ k * 2 ^ k = (n >>> k) <<< k := by
    rw [Nat.shiftRight_eq_div_pow, Nat.shiftLeft_eq]
  rw [e]
  refine Nat.eq_of_testBit_eq fun i => ?_
  rcases Nat.lt_or_ge i 20 with hi | hi
  · rcases hk with rfl | rfl <;> rcases bit_below_20 hi with
      rfl | rfl | rfl | rfl | rfl | rfl | rfl | rfl | rfl | rfl | rfl | rfl | rfl | rfl | rfl | rfl | rfl | rfl | rfl | rfl <;>
      simp [Nat.testBit_and] <;> (intro _; decide)
  · have h1 : n.testBit i = false :=
      Nat.testBit_lt_two_pow (lt_of_lt_of_le h (Nat.pow_le_pow_right (by omega) hi))
    have h2 : k + (i - k) = i := by omega
    simp [Nat.testBit_and, h1, h2]

theorem accepts_duty (w : CmdWord) : (w &&& 0xF0000#20 == 0x90000#20) = true ↔ w.toNat / 65536 = 9 := by
  have := and_high_bits w.toNat 16 w.isLt (.inr rfl)
  rw [beq_iff_eq, ← BitVec.toNat_inj, BitVec.toNat_and]
  norm_num at this ⊢
  omega

theorem accepts_boot (w : CmdWord) : (w &&& 0xFFFFE#20 == 0x80000#20) = true ↔ w.toNat / 2 = 0x40000 := by
  have := and_high_bits w.toNat 1 w.isLt (.inl rfl)
  rw [beq_iff_eq, ← BitVec.toNat_inj, BitVec.toNat_and]
  norm_num at this ⊢
  omega

/-- A word that matches no row falls under a case of R64, so `decodeHost` names why it is reserved. -/
theorem reservedClass_of_no_row (w : CmdWord) (h : ∀ r ∈ hostRows, r.accepts w = false) :
    (reservedClass w).isSome = true := by
  have key : ∀ c : CmdWord, w ≠ c → w.toNat ≠ c.toNat := fun c hc e => hc (BitVec.eq_of_toNat_eq e)
  simp only [hostRows, List.forall_mem_cons, HostRow.accepts, Bool.eq_false_iff, ne_eq, accepts_whole, accepts_duty,
    accepts_boot] at h
  obtain ⟨h0, h1, h2, h3, hb, hd, hc, -⟩ := h
  have h0 := key _ h0
  have h1 := key _ h1
  have h2 := key _ h2
  have h3 := key _ h3
  have hc := key _ hc
  have hw := w.isLt
  have hreg : ∀ k : Nat, k < 8 → (w.reg = BitVec.ofNat 3 k ↔ w.toNat / 65536 % 8 = k) := fun k hk => by
    rw [← BitVec.toNat_inj, reg_toNat, BitVec.toNat_ofNat, Nat.mod_eq_of_lt (by omega : k < 2 ^ 3)]
  have hdata : w.data = 0 ↔ w.toNat % 65536 = 0 := by
    rw [← BitVec.toNat_inj, data_toNat]; rfl
  have htop : w.data.extractLsb' 1 15 = 0 ↔ w.toNat % 65536 / 2 = 0 := by
    rw [← BitVec.toNat_inj, BitVec.extractLsb'_toNat, data_toNat, Nat.shiftRight_eq_div_pow]
    simp
    omega
  simp only [BitVec.toNat_ofNat] at h0 h1 h2 h3 hc
  unfold reservedClass
  simp only [isWrite_iff, hdata, htop, reg_toNat]
  have r0 : w.reg = 0 ↔ _ := hreg 0 (by omega)
  have r1 : w.reg = 1 ↔ _ := hreg 1 (by omega)
  have r2 : w.reg = 2 ↔ _ := hreg 2 (by omega)
  have r3 : w.reg = 3 ↔ _ := hreg 3 (by omega)
  simp only [r0, r1, r2, r3]
  repeat' split
  all_goals first | rfl | (exfalso; omega)

end Sys2Proof.Laws
end

