-- ==== Sys2Proof/Laws/Params.lean ====
section
/-! SUPPORT. Every parameter set the model may be of is one that 00_scope.md R8 lets be built, and every such set may be
it. -/

namespace Sys2Proof.Laws

theorem params_build_wf (a b c d e : Nat) : (Params.build a b c d e).wf := by
  have hb := Nat.mod_lt b (show 0 < 1 + a % 65535 by omega)
  have hd := Nat.mod_lt d (show 0 < 1 + e % 4294967295 by omega)
  simp only [Params.wf, Params.offsetPositive, Params.offsetBelowPeriod, Params.periodFits, Params.iterationsEven,
    Params.highShorter, Params.lowFits, Params.build]
  omega

theorem params_build_surjective (p : Params) (h : p.wf) : ∃ a b c d e, Params.build a b c d e = p := by
  obtain ⟨period, offset, iterations, high, low⟩ := p
  simp only [Params.wf, Params.offsetPositive, Params.offsetBelowPeriod, Params.periodFits, Params.iterationsEven,
    Params.highShorter, Params.lowFits] at h
  refine ⟨period - 2, offset - 1, (iterations - 2) / 2, high, low - 1, ?_⟩
  have hp : (period - 2) % 65535 = period - 2 := Nat.mod_eq_of_lt (by omega)
  have hl : (low - 1) % 4294967295 = low - 1 := Nat.mod_eq_of_lt (by omega)
  have ho : (offset - 1) % (1 + (period - 2)) = offset - 1 := Nat.mod_eq_of_lt (by omega)
  have hh : high % (1 + (low - 1)) = high := Nat.mod_eq_of_lt (by omega)
  have hn : (iterations - 2) / 2 % 32767 = (iterations - 2) / 2 := Nat.mod_eq_of_lt (by omega)
  simp only [Params.build, hp, hl, ho, hh, hn]
  congr 1 <;> omega

/-- The parameters of the model keep every refusing constraint of R8. -/
theorem config_params_wf : Config.params.wf := params_build_wf ..

theorem wavePeriod_pos {p : Params} (h : p.wf) : 0 < p.wavePeriod := by
  simp only [Params.wf, Params.offsetPositive, Params.offsetBelowPeriod] at h
  omega

end Sys2Proof.Laws
end

