-- ==== Sys2Proof/Laws/State.lean ====
section
/-! SUPPORT. One lemma per field and update, each true by definition. -/

namespace Sys2Proof.Machine

/-! ## Updates of the state -/

@[simp] theorem State.withBlock_block (s : State) (b : Block) : (s.withBlock b).block = b := rfl
@[simp] theorem State.withBlock_response (s : State) (b : Block) : (s.withBlock b).response = none := rfl
@[simp] theorem State.withBlock_inputs (s : State) (b : Block) : (s.withBlock b).inputs = s.inputs := rfl
@[simp] theorem State.withBlock_cycle (s : State) (b : Block) : (s.withBlock b).cycle = s.cycle := rfl

@[simp] theorem State.complete_block (s : State) (r : Block × Response) : (s.complete r).block = r.1 := rfl
@[simp] theorem State.complete_response (s : State) (r : Block × Response) : (s.complete r).response = some r.2 := rfl
@[simp] theorem State.complete_inputs (s : State) (r : Block × Response) : (s.complete r).inputs = s.inputs := rfl
@[simp] theorem State.complete_cycle (s : State) (r : Block × Response) : (s.complete r).cycle = s.cycle := rfl

@[simp] theorem State.beginCycle_block (s : State) : s.beginCycle.block = s.block := rfl
@[simp] theorem State.beginCycle_response (s : State) : s.beginCycle.response = none := rfl
@[simp] theorem State.beginCycle_inputs (s : State) : s.beginCycle.inputs = s.inputs.tail := rfl
@[simp] theorem State.beginCycle_cycle (s : State) : s.beginCycle.cycle = s.cycle + 1 := rfl

@[simp] theorem State.applyReset_block (s : State) : s.applyReset.block = Block.reset := rfl
@[simp] theorem State.applyReset_response (s : State) : s.applyReset.response = none := rfl
@[simp] theorem State.applyReset_inputs (s : State) : s.applyReset.inputs = s.inputs := rfl
@[simp] theorem State.applyReset_cycle (s : State) : s.applyReset.cycle = s.cycle := rfl

@[simp] theorem State.present_block (s : State) (i : Inputs) : (s.present i).block = s.block := rfl
@[simp] theorem State.present_nextInputs (s : State) (i : Inputs) : (s.present i).nextInputs = i := rfl
@[simp] theorem State.present_beginCycle (s : State) (i : Inputs) :
    (s.present i).beginCycle = { s with cycle := s.cycle + 1, response := none } := rfl

/-! ## Updates of the block -/

@[simp] theorem Block.incrementMillis_phaseCounter (b : Block) : b.incrementMillis.phaseCounter = b.phaseCounter := rfl
@[simp] theorem Block.incrementMillis_dutyTime (b : Block) : b.incrementMillis.dutyTime = b.dutyTime := rfl
@[simp] theorem Block.incrementMillis_outLine (b : Block) : b.incrementMillis.outLine = b.outLine := rfl
@[simp] theorem Block.incrementMillis_seqState (b : Block) : b.incrementMillis.seqState = b.seqState := rfl
@[simp] theorem Block.incrementMillis_seqPhase (b : Block) : b.incrementMillis.seqPhase = b.seqPhase := rfl
@[simp] theorem Block.incrementMillis_iterCount (b : Block) : b.incrementMillis.iterCount = b.iterCount := rfl

@[simp] theorem Block.clearMillis_phaseCounter (b : Block) : b.clearMillis.phaseCounter = b.phaseCounter := rfl
@[simp] theorem Block.clearMillis_dutyTime (b : Block) : b.clearMillis.dutyTime = b.dutyTime := rfl
@[simp] theorem Block.clearMillis_elapsedMillis (b : Block) : b.clearMillis.elapsedMillis = 0 := rfl
@[simp] theorem Block.clearMillis_outLine (b : Block) : b.clearMillis.outLine = b.outLine := rfl
@[simp] theorem Block.clearMillis_seqState (b : Block) : b.clearMillis.seqState = b.seqState := rfl
@[simp] theorem Block.clearMillis_seqPhase (b : Block) : b.clearMillis.seqPhase = b.seqPhase := rfl
@[simp] theorem Block.clearMillis_iterCount (b : Block) : b.clearMillis.iterCount = b.iterCount := rfl

@[simp] theorem Block.raiseHalt_phaseCounter (b : Block) : b.raiseHalt.phaseCounter = b.phaseCounter := rfl
@[simp] theorem Block.raiseHalt_dutyTime (b : Block) : b.raiseHalt.dutyTime = b.dutyTime := rfl
@[simp] theorem Block.raiseHalt_elapsedMillis (b : Block) : b.raiseHalt.elapsedMillis = b.elapsedMillis := rfl
@[simp] theorem Block.raiseHalt_outLine (b : Block) : b.raiseHalt.outLine = b.outLine := rfl
@[simp] theorem Block.raiseHalt_seqState (b : Block) : b.raiseHalt.seqState = .halted := rfl
@[simp] theorem Block.raiseHalt_seqPhase (b : Block) : b.raiseHalt.seqPhase = b.seqPhase := rfl
@[simp] theorem Block.raiseHalt_iterCount (b : Block) : b.raiseHalt.iterCount = b.iterCount := rfl

@[simp] theorem Block.driveCase_phaseCounter (b : Block) : b.driveCase.phaseCounter = b.phaseCounter := rfl
@[simp] theorem Block.driveCase_dutyTime (b : Block) : b.driveCase.dutyTime = b.dutyTime := rfl
@[simp] theorem Block.driveCase_elapsedMillis (b : Block) : b.driveCase.elapsedMillis = 0 := rfl
@[simp] theorem Block.driveCase_outLine (b : Block) : b.driveCase.outLine = !b.outLine := rfl
@[simp] theorem Block.driveCase_seqState (b : Block) : b.driveCase.seqState = b.seqState := rfl
@[simp] theorem Block.driveCase_seqPhase (b : Block) : b.driveCase.seqPhase = .hold := rfl
@[simp] theorem Block.driveCase_iterCount (b : Block) : b.driveCase.iterCount = b.iterCount := rfl

@[simp] theorem Block.endHold_phaseCounter (b : Block) : b.endHold.phaseCounter = b.phaseCounter := rfl
@[simp] theorem Block.endHold_dutyTime (b : Block) : b.endHold.dutyTime = b.dutyTime := rfl
@[simp] theorem Block.endHold_elapsedMillis (b : Block) : b.endHold.elapsedMillis = b.elapsedMillis := rfl
@[simp] theorem Block.endHold_outLine (b : Block) : b.endHold.outLine = b.outLine := rfl
@[simp] theorem Block.endHold_seqState (b : Block) : b.endHold.seqState = b.seqState := rfl
@[simp] theorem Block.endHold_seqPhase (b : Block) : b.endHold.seqPhase = .drive := rfl
@[simp] theorem Block.endHold_iterCount (b : Block) : b.endHold.iterCount = b.iterCount + 1#16 := rfl

@[simp] theorem Block.finishCase_phaseCounter (b : Block) : b.finishCase.phaseCounter = b.phaseCounter := rfl
@[simp] theorem Block.finishCase_dutyTime (b : Block) : b.finishCase.dutyTime = b.dutyTime := rfl
@[simp] theorem Block.finishCase_elapsedMillis (b : Block) : b.finishCase.elapsedMillis = b.elapsedMillis := rfl
@[simp] theorem Block.finishCase_outLine (b : Block) : b.finishCase.outLine = b.outLine := rfl
@[simp] theorem Block.finishCase_seqState (b : Block) : b.finishCase.seqState = .run := rfl
@[simp] theorem Block.finishCase_seqPhase (b : Block) : b.finishCase.seqPhase = b.seqPhase := rfl
@[simp] theorem Block.finishCase_iterCount (b : Block) : b.finishCase.iterCount = b.iterCount := rfl

end Sys2Proof.Machine
end

