-- ==== Sys2Proof/Laws/Ops.lean ====
section
/-! SUPPORT. What each operation can do, said once, for the proofs to cite instead of unfolding it. -/

namespace Sys2Proof.Machine

/-! ## The arithmetic of the elements -/

theorem Block.incrementMillis_toNat (b : Block) :
    b.incrementMillis.elapsedMillis.toNat = min (b.elapsedMillis.toNat + 1) (2 ^ 32 - 1) := by
  unfold Block.incrementMillis
  split
  · next h => simp [h]
  · next h =>
    have : b.elapsedMillis.toNat ≠ 4294967295 := fun e => h (BitVec.eq_of_toNat_eq (by simpa using e))
    have := b.elapsedMillis.isLt
    simp only [BitVec.toNat_add, BitVec.toNat_ofNat]
    omega

theorem Block.nextPhase_toNat {p : Params} (hp : p.wf) (b : Block) :
    (b.nextPhase p).toNat = if p.wavePeriod ≤ b.phaseCounter.toNat + 1 then 0 else b.phaseCounter.toNat + 1 := by
  unfold Block.nextPhase
  have hw : p.wavePeriod ≤ 65536 := hp.2.2.1
  split
  · rfl
  · simp only [BitVec.toNat_add, BitVec.toNat_ofNat]
    omega

theorem Block.nextPhase_lt {p : Params} (hp : p.wf) (b : Block) : (b.nextPhase p).toNat < p.wavePeriod := by
  rw [Block.nextPhase_toNat hp]
  have := Laws.wavePeriod_pos hp
  split <;> omega

theorem Block.drivesHigh_iff (p : Params) (b : Block) :
    b.drivesHigh p = true ↔ b.phaseCounter.toNat < p.minOffset + b.dutyTime.toNat :=
  decide_eq_true_iff

theorem Block.holdOver_iff (p : Params) (b : Block) :
    b.holdOver p = true ↔ b.holdTarget p ≤ b.elapsedMillis.toNat := by
  simp [Block.holdOver]

theorem Block.iterationsDone_iff (p : Params) (b : Block) :
    b.iterationsDone p = true ↔ b.iterCount.toNat = p.armIterations := by
  simp [Block.iterationsDone]

theorem Block.genEn_iff (b : Block) : b.genEn = true ↔ b.seqState = .run := by
  simp [Block.genEn]

/-! ## The operations -/

theorem opPwmTick_run (p : Params) {b : Block} (h : b.seqState = .run) :
    opPwmTick p b = { b with outLine := b.drivesHigh p, phaseCounter := b.nextPhase p } := by
  simp [opPwmTick, Block.genEn, h]

theorem opPwmTick_other (p : Params) {b : Block} (h : b.seqState ≠ .run) : opPwmTick p b = b := by
  simp [opPwmTick, Block.genEn, h]

@[simp] theorem opPwmTick_seqState (p : Params) (b : Block) : (opPwmTick p b).seqState = b.seqState := by
  unfold opPwmTick; split <;> rfl
@[simp] theorem opPwmTick_seqPhase (p : Params) (b : Block) : (opPwmTick p b).seqPhase = b.seqPhase := by
  unfold opPwmTick; split <;> rfl
@[simp] theorem opPwmTick_iterCount (p : Params) (b : Block) : (opPwmTick p b).iterCount = b.iterCount := by
  unfold opPwmTick; split <;> rfl
@[simp] theorem opPwmTick_elapsedMillis (p : Params) (b : Block) : (opPwmTick p b).elapsedMillis = b.elapsedMillis := by
  unfold opPwmTick; split <;> rfl
@[simp] theorem opPwmTick_dutyTime (p : Params) (b : Block) : (opPwmTick p b).dutyTime = b.dutyTime := by
  unfold opPwmTick; split <;> rfl

/-- The four things SEQ_STEP can do. -/
theorem opSeqStep_cases (p : Params) (b : Block) :
    (b.seqState ≠ .arming ∧ opSeqStep p b = b) ∨
    (b.seqState = .arming ∧ b.seqPhase = .drive ∧ b.iterCount.toNat = p.armIterations ∧
      opSeqStep p b = b.finishCase) ∨
    (b.seqState = .arming ∧ b.seqPhase = .drive ∧ b.iterCount.toNat ≠ p.armIterations ∧
      opSeqStep p b = b.driveCase) ∨
    (b.seqState = .arming ∧ b.seqPhase = .hold ∧ b.holdTarget p ≤ b.elapsedMillis.toNat ∧
      opSeqStep p b = b.endHold) ∨
    (b.seqState = .arming ∧ b.seqPhase = .hold ∧ b.elapsedMillis.toNat < b.holdTarget p ∧ opSeqStep p b = b) := by
  rcases hs : b.seqState <;> rcases hp : b.seqPhase <;>
    simp only [opSeqStep, hs, hp, Block.iterationsDone, Block.holdOver, decide_eq_true_eq] <;> simp <;> grind

/-- A host command changes the block in one of five ways, or not at all. -/
theorem applyOp_host_cases (p : Params) (c : Instr) (b : Block) (h : c.format = .host) :
    ∃ r : Response, (applyOp p c b).2 = some r ∧
      ((applyOp p c b).1 = b ∨
        (∃ v, c = .wrDuty v ∧ b.seqState ≠ .halted ∧ (applyOp p c b).1 = { b with dutyTime := v }) ∨
        (c = .clrMillis ∧ (b.seqState = .idle ∨ b.seqState = .run) ∧ (applyOp p c b).1 = b.clearMillis) ∨
        (c = .boot 1#1 ∧ b.seqState = .idle ∧
          (applyOp p c b).1 = { b with seqState := .arming, seqPhase := .drive, iterCount := 0 }) ∨
        (c = .boot 0#1 ∧ b.seqState = .idle ∧ (applyOp p c b).1 = b.raiseHalt)) := by
  cases c with
  | msTick | pwmTick | seqStep => cases h
  | rdStatus | rdDuty | rdMillis | rdPhase => exact ⟨_, rfl, .inl rfl⟩
  | wrDuty v =>
    refine ⟨_, rfl, ?_⟩
    rcases hs : b.seqState <;> simp [applyOp, opWrDuty, hs]
  | clrMillis =>
    refine ⟨_, rfl, ?_⟩
    rcases hs : b.seqState <;> simp [applyOp, opClrMillis, hs]
  | boot t =>
    refine ⟨_, rfl, ?_⟩
    have ht : t = 0#1 ∨ t = 1#1 := by revert t; decide
    rcases hs : b.seqState <;> rcases ht with rfl | rfl <;> simp [applyOp, opBoot, timebaseOk, hs]

/-- What executing an operation does: the operation on the block, and its response as the output; it never stops. -/
theorem exec_eq (i : Instr) (s : State) :
    exec i s = .next { s with
      block := (applyOp Config.params i s.block).1
      response := (applyOp Config.params i s.block).2 } := by
  cases i <;> rfl

/-- No operation reads the response of an earlier one, or carries it on (10_state.md R28). -/
theorem exec_forgets_response (i : Instr) (s : State) (r : Option Response) :
    exec i { s with response := r } = exec i s := by
  rw [exec_eq, exec_eq]

/-- No step reads the response of an earlier one, or carries it on. -/
theorem step_forgets_response (s : State) (r : Option Response) : step { s with response := r } = step s := rfl

end Sys2Proof.Machine
end

