-- ==== Sys2Proof/Laws/Cycle.lean ====
section
/-! SUPPORT. What each part of a clock cycle does (00_scope.md R14). -/

namespace Sys2Proof.Machine

/-- Parts 1 and 2 never stop: the block after the ticks. A cycle begins with no response. -/
theorem eventStage_eq (i : Inputs) (s : State) (h : s.response = none) :
    eventStage i s = .next (s.withBlock (afterTicks Config.params s.block i)) := by
  unfold eventStage afterTicks
  rw [Laws.decodeEvent_eventVector]
  obtain ⟨b, r, is, n⟩ := s
  cases h
  cases i.msTick <;> cases i.pwmTick <;> rfl

/-- Part 3 never stops: SEQ_STEP in ARMING, nothing in the other modes. -/
theorem sequencerStage_eq (s : State) (h : s.response = none) :
    sequencerStage s = .next (s.withBlock
      (if s.block.seqState = .arming then opSeqStep Config.params s.block else s.block)) := by
  unfold sequencerStage
  rw [Laws.decodeSelector_code]
  obtain ⟨b, r, is, n⟩ := s
  cases h
  split <;> rfl

/-- Only operations of format H come from a host word. -/
theorem decodeHost_format {w : CmdWord} {c : Instr} (h : decodeHost w = .ok c) : c.format = .host := by
  unfold decodeHost at h
  split at h
  · next r hr =>
    have := List.mem_of_find?_eq_some hr
    simp only [hostRows, List.mem_cons, List.not_mem_nil, or_false] at this
    cases h
    rcases this with rfl | rfl | rfl | rfl | rfl | rfl | rfl <;> rfl
  · cases h

/-- A host word never stops the machine. -/
theorem hostCommand_eq (w : CmdWord) (s : State) :
    hostCommand w s = .next { s with
      block := (applyWord Config.params w s.block).1
      response := (applyWord Config.params w s.block).2 } := by
  unfold hostCommand applyWord
  cases decodeHost w with
  | ok c => exact exec_eq c s
  | error r => rfl

/-- The block after the ticks of a cycle in ARMING: only ElapsedMillis can have changed. -/
theorem afterTicks_arming (p : Params) (b : Block) (i : Inputs) (h : b.seqState = .arming) :
    afterTicks p b i = if i.msTick then b.incrementMillis else b := by
  unfold afterTicks
  simp only [opMsTick]
  split <;> split <;> simp [opPwmTick_other, h]

/-- The mode is the same after the ticks. -/
@[simp] theorem afterTicks_seqState (p : Params) (b : Block) (i : Inputs) : (afterTicks p b i).seqState = b.seqState := by
  unfold afterTicks
  simp only [opMsTick]
  split <;> split <;> simp

/-- What a cycle without reset adds after the sequencer's step: nothing, or the effect of one accepted command. -/
theorem blockCycle_cases (p : Params) (b : Block) (i : Inputs) (h : i.rst = false) :
    (blockCycle p b i).1 = afterSequencer p b i ∨
    (i.hValid = true ∧ ∃ c, decodeHost i.hCmd = .ok c ∧
      (blockCycle p b i).1 = (applyOp p c (afterSequencer p b i)).1) := by
  unfold blockCycle
  rw [if_neg (by simp [h])]
  split
  · next hv =>
    unfold applyWord
    cases hd : decodeHost i.hCmd with
    | error k => exact .inl rfl
    | ok c => exact .inr ⟨hv, c, rfl, rfl⟩
  · exact .inl rfl

end Sys2Proof.Machine
end

