-- ==== Sys2Proof/Laws/PerInstr.lean ====
section
/-! SUPPORT. Per-instruction facts about the syntax. HostWordFields: the word of a host command has the REG number of the
register it reaches and W = 1 exactly for a write or command (30_encoding.md R58, 10_state.md R30, 20_memory.md R41). -/

namespace Sys2Proof.Laws.HostWordFields

open Sys2Proof.Machine

/-- The fields W and REG of an operation's host word, if it has one. -/
def Statement (i : Instr) : Prop :=
  ∀ w, hostWord i = some w → w.isWrite = commandWrites i ∧ some w.reg = (commandRegister i).map HostReg.number

theorem msTick : Statement .msTick := nofun
theorem pwmTick : Statement .pwmTick := nofun
theorem seqStep : Statement .seqStep := nofun
theorem rdStatus : Statement .rdStatus := by rintro w ⟨⟩; decide
theorem rdDuty : Statement .rdDuty := by rintro w ⟨⟩; decide
theorem rdMillis : Statement .rdMillis := by rintro w ⟨⟩; decide
theorem rdPhase : Statement .rdPhase := by rintro w ⟨⟩; decide
theorem boot (t : BitVec 1) : Statement (.boot t) := by rintro w ⟨⟩; revert t; decide
theorem clrMillis : Statement .clrMillis := by rintro w ⟨⟩; decide

theorem wrDuty (v : Word16) : Statement (.wrDuty v) := by
  rintro w ⟨⟩
  have hv := v.isLt
  have e : (0x90000#20 + v.setWidth 20).toNat = 0x90000 + v.toNat := by
    simp only [BitVec.toNat_add, BitVec.toNat_setWidth, BitVec.toNat_ofNat]
    omega
  refine ⟨(isWrite_iff _).2 (by omega), congrArg some (BitVec.eq_of_toNat_eq ?_)⟩
  rw [reg_toNat, e]
  simp only [HostReg.number, BitVec.toNat_ofNat]
  omega

end Sys2Proof.Laws.HostWordFields
end

