-- ==== Sys2Proof/Tests/Slice0.lean ====
section
/-! SUPPORT. Tests. Expected results are the spec's: the constraints of 00_scope.md R8, the words of 30_encoding.md R63
and 95_test_vectors.md section 2.4, and the vectors named in each test, under the spec's parameter set SMALL. -/

namespace Sys2Proof.Tests

open Sys2Proof.Machine

/-! ## Helpers -/

/-- The set SMALL of 95_test_vectors.md. -/
def small : Params := ⟨8, 2, 2, 1, 2⟩

/-- A block with a mode and the elements a test needs; the others at their reset values. -/
def inMode (m : SeqState) (phase duty : Word16 := 0) (millis : Word32 := 0) (line : Bool := false)
    (ph : SeqPhase := .drive) (iter : Word16 := 0) : Block :=
  ⟨phase, duty, millis, line, m, ph, iter⟩

/-- The machine in a block state, with inputs scheduled. -/
def machine (b : Block) (is : List Inputs := []) : State := ⟨b, none, is, 0⟩

/-- The inputs of a step with strobes and a command word. -/
def cmd (w : CmdWord) (ms pwm : Bool := false) : Inputs := ⟨false, ms, pwm, true, w⟩

/-- The inputs of a step with strobes only. -/
def tick (ms pwm : Bool := false) : Inputs := ⟨false, ms, pwm, false, 0⟩

/-- The block and the response after an outcome. -/
def after (r : Result) : Option (Block × Option Response) :=
  match r with
  | .next s => some (s.block, s.response)
  | .fault _ | .refused _ => none

/-! ## Well-formedness: each check refuses an ill-formed term -/

theorem test_small_wf : small.wf := by decide
theorem test_reference_wf : (Params.reference 2 1 2).wf ∧ (Params.reference 2 1 2).dutyMax = 1900 := by decide
theorem test_refuses_zero_offset : ¬ ({ small with minOffset := 0 } : Params).offsetPositive := by decide
theorem test_refuses_offset_at_period : ¬ ({ small with minOffset := 8 } : Params).offsetBelowPeriod := by decide
theorem test_refuses_long_period : ¬ ({ small with wavePeriod := 65537 } : Params).periodFits := by decide
theorem test_warns_small_duty_max : ¬ small.holdsPercentage := by decide
theorem test_refuses_odd_iterations : ¬ ({ small with armIterations := 3 } : Params).iterationsEven := by decide
theorem test_refuses_no_iterations : ¬ ({ small with armIterations := 0 } : Params).iterationsEven := by decide
theorem test_refuses_many_iterations : ¬ ({ small with armIterations := 65536 } : Params).iterationsEven := by decide
theorem test_refuses_long_high : ¬ ({ small with armHighMs := 2 } : Params).highShorter := by decide
theorem test_refuses_long_low : ¬ ({ small with armLowMs := 4294967296 } : Params).lowFits := by decide
theorem test_refuses_ill_formed_sets :
    [({ small with minOffset := 0 } : Params), { small with minOffset := 8 }, { small with wavePeriod := 65537 },
      { small with armIterations := 3 }, { small with armHighMs := 2 },
      { small with armLowMs := 4294967296 }].all (fun p => ¬ p.wf) = true := by decide
theorem test_refuses_ill_formed_lines :
    [SourceCmd.boot 2, .wrDuty 65536, .word 1048576, .delay 4294967296].all (fun c => !c.wf) = true := by decide

/-! ## Decoding: every operation from a word written out from R58, R60, R61, R63 -/

theorem test_decode_rd_status : decodeHost 0b0_000_0000000000000000#20 = .ok .rdStatus := by decide
theorem test_decode_rd_duty : decodeHost 0b0_001_0000000000000000#20 = .ok .rdDuty := by decide
theorem test_decode_rd_millis : decodeHost 0b0_010_0000000000000000#20 = .ok .rdMillis := by decide
theorem test_decode_rd_phase : decodeHost 0b0_011_0000000000000000#20 = .ok .rdPhase := by decide
theorem test_decode_boot : decodeHost 0b1_000_0000000000000000#20 = .ok (.boot 0) ∧
    decodeHost 0b1_000_0000000000000001#20 = .ok (.boot 1) := by decide
theorem test_decode_wr_duty : decodeHost 0b1_001_0000000000110010#20 = .ok (.wrDuty 50) ∧
    decodeHost 0b1_001_1111111111111111#20 = .ok (.wrDuty 65535) := by decide
theorem test_decode_clr_millis : decodeHost 0b1_010_0000000000000000#20 = .ok .clrMillis := by decide
theorem test_decode_ms_tick : decodeEvent 0b01#2 = [.msTick] := by decide
theorem test_decode_pwm_tick : decodeEvent 0b10#2 = [.pwmTick] := by decide
theorem test_decode_seq_step : decodeSelector 0b01#2 = some .seqStep ∧ decodeSelector 0b11#2 = none := by decide
theorem test_decode_reserved : decodeHost 0x00001#20 = .error .readWithData ∧
    decodeHost 0x40000#20 = .error .readOfReservedRegister ∧ decodeHost 0x80002#20 = .error .bootWithData ∧
    decodeHost 0xA0001#20 = .error .nonZeroMillisWrite ∧ decodeHost 0xB0000#20 = .error .phaseWrite ∧
    decodeHost 0xF1234#20 = .error .writeOfReservedRegister := by decide
theorem test_table_words : decodeTableWord 24 0x90032 = some (.wrDuty 50) ∧ decodeTableWord 8 2 = some .pwmTick ∧
    decodeTableWord 24 0xB0000 = none := by decide

/-! ## Source lines (R67) -/

theorem test_line_with_flags :
    (readLine "mp WR_DUTY #50").bind lineInputs = some [⟨false, true, true, true, 0x90032⟩] := by decide
theorem test_line_repeated : readLine "r .word 0xA0001 * 3" = some ⟨true, false, false, .word 0xA0001, 3⟩ := by decide
theorem test_line_out_of_range : readLine "BOOT #2" = none := by decide

/-! ## One step of each operation -/

/-- V-T1. -/
theorem test_ms_tick : after (exec .msTick (machine (inMode .idle (millis := 41)))) =
    some (inMode .idle (millis := 42), none) := by decide
/-- V-T2, second step. -/
theorem test_ms_tick_saturates : after (step (machine (inMode .halted (millis := 0xFFFFFFFF)) [tick (ms := true)])) =
    some (inMode .halted (millis := 0xFFFFFFFF), none) := by decide
/-- V-T10. -/
theorem test_rd_millis_sees_tick : after (step (machine (inMode .run (millis := 7)) [cmd 0x20000 (ms := true)])) =
    some (inMode .run (millis := 8), some ⟨.okay, 8⟩) := by decide
/-- V-T4. -/
theorem test_clr_millis_wins : after (step (machine (inMode .run (millis := 77)) [cmd 0xA0000 (ms := true)])) =
    some (inMode .run, some ⟨.okay, 0⟩) := by decide
/-- V-T8. -/
theorem test_clr_millis_refused : after (exec .clrMillis (machine (inMode .halted (millis := 5)))) =
    some (inMode .halted (millis := 5), some ⟨.errState, 0⟩) := by decide
/-- V-G1, row 5, column 7, and V-G2: the one low tick, which wraps. -/
theorem test_pwm_tick_last : opPwmTick small (inMode .run (phase := 7) (duty := 5) (line := true)) =
    inMode .run (phase := 0) (duty := 5) (line := false) := by decide
/-- V-G1, row 65535, column 3: the threshold does not wrap. -/
theorem test_pwm_tick_threshold : opPwmTick small (inMode .run (phase := 3) (duty := 65535)) =
    inMode .run (phase := 4) (duty := 65535) (line := true) := by decide
/-- V-G5. -/
theorem test_wr_duty : after (exec (.wrDuty 50) (machine (inMode .arming))) =
    some (inMode .arming (duty := 50), some ⟨.okay, 0⟩) := by decide
/-- V-G5, in HALTED. -/
theorem test_wr_duty_halted : after (step (machine (inMode .halted (duty := 5)) [cmd 0x90007])) =
    some (inMode .halted (duty := 5), some ⟨.errState, 0⟩) := by decide
/-- V-G5. -/
theorem test_rd_duty : after (exec .rdDuty (machine (inMode .idle (duty := 50)))) =
    some (inMode .idle (duty := 50), some ⟨.okay, 0x32⟩) := by decide
/-- V-G7. -/
theorem test_rd_phase : after (exec .rdPhase (machine (inMode .run (phase := 5)))) =
    some (inMode .run (phase := 5), some ⟨.okay, 5⟩) := by decide
/-- V-A1. -/
theorem test_boot_arms : after (step (machine Block.reset [cmd 0x80001])) =
    some (inMode .arming, some ⟨.okay, 0⟩) := by decide
/-- P2, step 2. -/
theorem test_boot_halts : after (step (machine (inMode .idle (duty := 5)) [cmd 0x80000 (ms := true)])) =
    some (inMode .halted (duty := 5) (millis := 1), some ⟨.okay, 0⟩) := by decide
/-- V-A5. -/
theorem test_seq_step_drive : (clockStep small (inMode .arming (millis := 9)) (tick (ms := true))).1 =
    inMode .arming (line := true) (ph := .hold) := by decide
/-- V-A9: the fast tick of the finish step is ignored. -/
theorem test_seq_step_finish : (clockStep small (inMode .arming (millis := 2) (iter := 2)) (tick (pwm := true))).1 =
    inMode .run (millis := 2) (iter := 2) := by decide
/-- V-A11. -/
theorem test_rd_status : (opRdStatus (inMode .arming (ph := .hold) (iter := 1))).2 = ⟨.okay, 0x00010005⟩ ∧
    (opRdStatus (inMode .run (line := true) (iter := 2))).2 = ⟨.okay, 0x0002001A⟩ := by decide
/-- P4, step 1: a reserved word in ARMING is ERR_RESERVED, not ERR_STATE. -/
theorem test_reserved : after (hostCommand 0xA0001 (machine (inMode .arming))) =
    some (inMode .arming, some ⟨.errReserved, 0⟩) := by decide
/-- V-G6, first step: the tick uses the old DutyTime. -/
theorem test_same_step_write : (clockStep small (inMode .run (phase := 3)) (cmd 0x90003 (pwm := true))).1 =
    inMode .run (phase := 4) (duty := 3) := by decide
/-- R68: a DELAY in ARMING is abandoned. -/
theorem test_delay_abandoned : (hostStep small (false, false) (inMode .arming (ph := .hold), [.delay 2])).2 = [] := by
  decide

/-- R148: with nothing left to do the reference host goes to the loop, and R55: raw = max_raw is 100 per cent. -/
theorem test_reference_loop : LoopHost.ready (referenceLoop 4095 fun _ => 4095) ⟨[], 3⟩ =
    ⟨[.delay 10, .line false (some 0x90064)], 4⟩ := by decide
/-- The model's choice (log entry 9): no reset comes of an `r` before DELAY. -/
theorem test_reset_flag_of_delay : (readLine "r DELAY #2").map lineTasks = some [.delay 2] := by decide

/-! ## Witnesses: each statement's hypotheses are met together by concrete data -/

/-- The block at the end of arming, for the parameters of the model. -/
def armed : Block :=
  inMode .arming (millis := BitVec.ofNat 32 Config.params.armLowMs) (iter := BitVec.ofNat 16 Config.params.armIterations)

theorem armed_iterCount : armed.iterCount.toNat = Config.params.armIterations := by
  have h := Laws.config_params_wf.2.2.2.1.2.2
  exact (BitVec.toNat_ofNat ..).trans (Nat.mod_eq_of_lt (by omega))

theorem armed_inv : armed.Inv Config.params := by
  have hw := Laws.config_params_wf
  have hp := Laws.wavePeriod_pos hw
  have hi := armed_iterCount
  have he : Config.params.armIterations % 2 = 0 := hw.2.2.2.1.1
  have hl : Config.params.armLowMs ≤ 4294967295 := hw.2.2.2.2.2
  refine ⟨⟨hp, hi.le, nofun, nofun, fun _ => rfl, nofun, fun _ _ => ?_, nofun⟩, nofun, fun _ _ _ => ?_⟩
  · rw [hi, he]; rfl
  · have : armed.elapsedMillis.toNat = Config.params.armLowMs :=
      (BitVec.toNat_ofNat ..).trans (Nat.mod_eq_of_lt (by omega))
    rw [this]
    exact Nat.le_refl _

theorem halted_inv : (inMode .halted (duty := 5)).Inv Config.params :=
  ⟨⟨Laws.wavePeriod_pos Laws.config_params_wf, Nat.zero_le _, nofun, fun _ => ⟨rfl, rfl, rfl, rfl⟩, nofun, nofun, nofun,
    nofun⟩, nofun, nofun⟩

/-- The block at the end of arming under SMALL. -/
theorem small_armed_inv : (inMode .arming (millis := 2) (iter := 2)).Inv small :=
  ⟨⟨by decide, by decide, nofun, nofun, fun _ => rfl, nofun, fun _ _ => rfl, nofun⟩, nofun, fun _ _ _ => by decide⟩

theorem witness_StepRunsTheDecodedOperations :
    (machine Block.reset [⟨true, false, false, false, 0⟩]).nextInputs.rst = true ∧
    (machine (inMode .arming) [cmd 0x90032 true true]).nextInputs.rst = false ∧
    decodeHost 0x90032#20 = .ok (.wrDuty 50) := by decide
theorem witness_CycleIsASequenceOfOperations :
    (machine (inMode .arming) [cmd 0x90032 true true]).nextInputs.rst = false ∧
    ∃ c, decodeHost (machine (inMode .arming) [cmd 0x90032 true true]).nextInputs.hCmd = .ok c :=
  ⟨rfl, .wrDuty 50, by decide⟩
theorem witness_UnreadInputsDoNotMatter : (tick true true).hValid = false ∧
    (⟨true, true, true, true, 0x90032⟩ : Inputs).rst = true ∧ (⟨true, false, false, false, 0⟩ : Inputs).rst = true := by
  decide
theorem witness_ModesChangeOnlyByBootFinishAndReset :
    (after (step (machine (inMode .idle) [cmd 0x80001]))).isSome = true ∧
    (after (step (machine (inMode .halted) [cmd 0x80001]))).isSome = true ∧
    (after (step (machine (inMode .run) [cmd 0x80001]))).isSome = true ∧
    (after (step (machine (inMode .arming) [tick]))).isSome = true ∧
    (after (step (machine (inMode .run) [⟨true, false, false, false, 0⟩]))).isSome = true := by decide
theorem witness_OperationsWriteOnlyWhatTheyOwn : (after (exec .msTick (machine (inMode .run)))).isSome = true ∧
    ¬ MayWrite Config.params .msTick (inMode .run) .dutyTime := ⟨by decide, nofun⟩
theorem witness_StepKeepsInvariant : (machine (inMode .halted (duty := 5)) [tick true true]).block.Inv Config.params ∧
    (after (step (machine (inMode .halted (duty := 5)) [tick true true]))).isSome = true := ⟨halted_inv, by decide⟩
theorem witness_ReachableStatesAreLegal : Reachable (machine Block.reset [cmd 0x80001]) := .start _ rfl
theorem witness_ReadsExposeTheWholeState : ∀ r : HostReg, (inMode .run (iter := 2)).readReg r =
    (inMode .run (iter := 2)).readReg r := fun _ => rfl
theorem witness_ResponsesAreNotStored : Instr.msTick.format ≠ .host ∧
    (after (exec .msTick { machine (inMode .run) with response := some ⟨.okay, 7⟩ })).isSome = true := by decide
theorem witness_DutyWriteIsSeenByTheNextTick :
    (inMode .run).seqState ≠ .halted ∧ (cmd 0x90003 (pwm := true)).rst = false ∧
    (cmd 0x90003 (pwm := true)).hValid = true ∧ decodeHost (cmd 0x90003 (pwm := true)).hCmd = .ok (.wrDuty 3) ∧
    NoReset [tick true true] ∧
    (∀ k ∈ [tick true true], k.hValid = true → ∀ u, decodeHost k.hCmd ≠ .ok (.wrDuty u)) ∧
    (tick (pwm := true)).rst = false ∧ (tick (pwm := true)).pwmTick = true ∧ (inMode .run).seqState = .run ∧
    (runBlock small (clockStep small (inMode .run) (cmd 0x90003 (pwm := true))).1 [tick true true]).seqState = .run :=
  ⟨nofun, rfl, rfl, by decide, by decide, by simp [tick], rfl, rfl, rfl, by decide⟩
theorem witness_ReadSeesItsOwnStep :
    (machine (inMode .run (millis := 7)) [cmd 0x20000 (ms := true)]).nextInputs.rst = false ∧
    (machine (inMode .run (millis := 7)) [cmd 0x20000 (ms := true)]).nextInputs.hValid = true ∧
    hostWord .rdMillis = some (machine (inMode .run (millis := 7)) [cmd 0x20000 (ms := true)]).nextInputs.hCmd ∧
    (after (step (machine (inMode .run (millis := 7)) [cmd 0x20000 (ms := true)]))).isSome = true := by decide
theorem witness_EncodeAndDecodeAreInverse : decodeHost 0x9FFFF#20 = .ok (.wrDuty 65535) := by decide
theorem witness_ReservedWordsAreRefused : decodeHost 0x0FFFF#20 = .error .readWithData ∧
    decodeHost 0x7FFFF#20 = .error .readOfReservedRegister ∧ decodeHost 0x8FFFF#20 = .error .bootWithData ∧
    decodeHost 0xAFFFF#20 = .error .nonZeroMillisWrite ∧ decodeHost 0xBFFFF#20 = .error .phaseWrite ∧
    decodeHost 0xC0000#20 = .error .writeOfReservedRegister := by decide
theorem witness_ClrMillisClearsOrIsRefused : (machine (inMode .idle)).block.seqState = .idle ∧
    (machine (inMode .run)).block.seqState = .run ∧ (machine (inMode .arming)).block.seqState = .arming ∧
    (machine (inMode .halted)).block.seqState = .halted := by decide
theorem witness_ClearWinsOverTheTick :
    ((machine (inMode .idle) [cmd 0xA0000 (ms := true)]).nextInputs.hCmd = 0xA0000#20 ∧
      (after (step (machine (inMode .idle) [cmd 0xA0000 (ms := true)]))).isSome = true) ∧
    (machine (inMode .arming) [tick (ms := true)]).block.iterCount.toNat ≠ Config.params.armIterations ∧
    (after (step (machine (inMode .arming) [tick (ms := true)]))).isSome = true := by
  refine ⟨by decide, ?_, by decide⟩
  have h : 2 ≤ Config.params.armIterations := Laws.config_params_wf.2.2.2.1.2.1
  have e : (machine (inMode .arming) [tick (ms := true)]).block.iterCount.toNat = 0 := rfl
  omega
theorem witness_DelayWaitsForItsTicks : (inMode .idle).seqState = .idle ∧ (inMode .run).seqState = .run := by decide
theorem witness_PwmTickDrivesTheLine : (machine (inMode .run)).block.seqState = .run ∧
    (machine (inMode .arming)).block.seqState ≠ .run := by decide
/-- DutyTime at DUTY_MAX when it is below 65536 - which DUTY_MAX always is - and one below it. -/
theorem witness_DutyAtItsBoundIsAlwaysHigh :
    (machine (inMode .run (duty := BitVec.ofNat 16 Config.params.dutyMax))).block.seqState = .run ∧
    (inMode .run).phaseCounter.toNat < Config.params.wavePeriod ∧
    Config.params.dutyMax ≤ (inMode .run (duty := BitVec.ofNat 16 Config.params.dutyMax)).dutyTime.toNat ∧
    (inMode .run (duty := BitVec.ofNat 16 (Config.params.dutyMax - 1))).dutyTime.toNat + 1 = Config.params.dutyMax := by
  have hw := Laws.config_params_wf
  have h1 : 1 ≤ Config.params.minOffset := hw.1
  have h2 : Config.params.minOffset < Config.params.wavePeriod := hw.2.1
  have h3 : Config.params.wavePeriod ≤ 65536 := hw.2.2.1
  refine ⟨rfl, Laws.wavePeriod_pos hw, ?_, ?_⟩ <;>
    simp only [inMode, Params.dutyMax, BitVec.toNat_ofNat] <;> omega
theorem witness_WaveformIsPeriodicUnderTraffic : small.wf ∧ (inMode .run (duty := 3)).seqState = .run ∧
    (inMode .run (duty := 3)).phaseCounter.toNat < small.wavePeriod ∧ NoReset [cmd 0x90003 true true, tick true true] ∧
    (∀ i ∈ [cmd 0x90003 true true, tick true true], i.hValid = true → ∀ v, decodeHost i.hCmd = .ok (.wrDuty v) →
      v = (inMode .run (duty := 3)).dutyTime) := by
  refine ⟨by decide, by decide, by decide, by decide, fun i hi hv v hd => ?_⟩
  simp only [List.mem_cons, List.not_mem_nil, or_false] at hi
  rcases hi with rfl | rfl
  · have e : decodeHost (cmd 0x90003 true true).hCmd = .ok (.wrDuty 3) := by decide
    rw [e] at hd
    cases hd
    rfl
  · cases hv
theorem witness_WrDutyStoresOrIsRefused : (machine (inMode .idle)).block.seqState ≠ .halted ∧
    (machine (inMode .halted)).block.seqState = .halted := by decide
theorem witness_BootArmsHaltsOrIsRefused : (machine Block.reset).block.seqState = .idle ∧
    (machine (inMode .run)).block.seqState ≠ .idle := by decide
/-- The drive case not done and done, and the hold case over; the hold case not over with the line low, since ARM_LOW_MS is at
least 1. -/
theorem witness_SeqStepDrivesHoldsOrFinishes :
    ((machine armed).block.seqState = .arming ∧ (machine armed).block.seqPhase = .drive ∧
      (machine armed).block.iterCount.toNat = Config.params.armIterations) ∧
    (inMode .arming).iterCount.toNat ≠ Config.params.armIterations ∧
    Config.params.armLowMs ≤ (inMode .arming (millis := 4294967295) (ph := .hold)).elapsedMillis.toNat ∧
    (inMode .arming (ph := .hold)).elapsedMillis.toNat < Config.params.armLowMs := by
  have hw := Laws.config_params_wf
  have h1 : 2 ≤ Config.params.armIterations := hw.2.2.2.1.2.1
  have h2 : Config.params.armHighMs < Config.params.armLowMs := hw.2.2.2.2.1
  have e1 : (inMode .arming).iterCount.toNat = 0 := rfl
  have e2 : (inMode .arming (ph := .hold)).elapsedMillis.toNat = 0 := rfl
  exact ⟨⟨rfl, rfl, armed_iterCount⟩, by omega, hw.2.2.2.2.2, by omega⟩
theorem witness_FinishCaseLeavesTheTerminalState : (machine armed).block.Inv Config.params ∧
    (machine armed).block.seqState = .arming ∧ (machine armed).block.seqPhase = .drive ∧
    (machine armed).block.iterCount.toNat = Config.params.armIterations := ⟨armed_inv, rfl, rfl, armed_iterCount⟩
theorem witness_HandOverIsWithoutAGlitch : small.wf ∧ (inMode .arming (millis := 2) (iter := 2)).Inv small ∧
    (inMode .arming (millis := 2) (iter := 2)).seqState = .arming ∧
    (clockStep small (inMode .arming (millis := 2) (iter := 2)) (tick true true)).1.seqState = .run ∧
    NoReset [tick true] ∧ (∀ k ∈ [tick true], k.pwmTick = false) ∧ (tick false true).rst = false ∧
    (tick false true).pwmTick = true :=
  ⟨by decide, small_armed_inv, rfl, by decide, by decide, by decide, rfl, rfl⟩
theorem witness_ArmingCountsExactly : small.wf ∧ (inMode .arming).ArmingBegins ∧
    NoReset (List.replicate 6 (tick true true)) ∧
    (runBlock small (inMode .arming) (List.replicate 6 (tick true true))).seqState = .run := by decide
theorem witness_HoldEndsAtItsLastTick : small.wf ∧ (inMode .arming (ph := .hold)).seqState = .arming ∧
    (inMode .arming (ph := .hold)).seqPhase = .hold ∧ (inMode .arming (ph := .hold)).elapsedMillis = 0 ∧
    NoReset [tick true] ∧ (tick true).rst = false ∧
    msTicks [tick true] < (inMode .arming (ph := .hold)).holdTarget small ∧
    msTicks [tick true] + 1 = (inMode .arming (ph := .hold)).holdTarget small ∧
    ({ small with armHighMs := 0 } : Params).wf ∧
    (inMode .arming (line := true) (ph := .hold)).holdTarget { small with armHighMs := 0 } = 0 := by decide
theorem witness_ArmingEndsWhileTicksCome : small.wf ∧ (inMode .arming).ArmingBegins ∧
    NoReset (List.replicate 6 (tick true)) ∧ (∀ i ∈ List.replicate 6 (tick true), i.msTick = true) ∧
    6 = small.armIterations / 2 * ((1 + max 1 small.armHighMs) + (1 + small.armLowMs)) + 1 := by decide
theorem witness_ArmingWaitsWithoutTicks : small.wf ∧ 1 ≤ small.armHighMs ∧ ({ small with armHighMs := 0 } : Params).wf ∧
    (inMode .arming).ArmingBegins ∧ NoReset [tick, tick, tick] ∧ (∀ i ∈ [tick, tick, tick], i.msTick = false) := by
  decide
theorem witness_HaltedOnlyCountsMillis :
    (machine (inMode .halted (duty := 5)) [cmd 0x90007]).block.Legal Config.params ∧
    (machine (inMode .halted (duty := 5)) [cmd 0x90007]).block.seqState = .halted ∧
    (machine (inMode .halted (duty := 5)) [cmd 0x90007]).nextInputs.rst = false ∧
    (machine (inMode .halted (duty := 5)) [cmd 0x90007]).nextInputs.hValid = true ∧
    decodeHost 0x90007#20 = .ok (.wrDuty 7) ∧ decodeHost 0x80001#20 = .ok (.boot 1) ∧
    decodeHost 0xA0000#20 = .ok .clrMillis ∧ decodeHost 0x10000#20 = .ok .rdDuty :=
  ⟨halted_inv.toLegal, rfl, rfl, rfl, by decide, by decide, by decide, by decide⟩
theorem witness_EveryCommandGetsOneResponse :
    after (step (machine (inMode .halted) [cmd 0xA0000])) = some (inMode .halted, some ⟨.errState, 0⟩) ∧
    after (step (machine (inMode .halted) [tick])) = some (inMode .halted, none) := by decide
theorem witness_CommandsFollowThePermissionTable : (Instr.wrDuty 7).format = .host ∧
    permitted (.wrDuty 7) .run = true ∧ permitted (.wrDuty 7) .halted = false := by decide
theorem witness_ResetStepSetsEveryElement :
    (machine (inMode .run) [⟨true, true, true, true, 0x90032⟩]).nextInputs.rst = true := by decide
theorem witness_ReadsAfterResetReturnZero :
    (machine (inMode .run) [⟨true, true, true, true, 0x90032⟩]).nextInputs.rst = true ∧
    (after (step (machine (inMode .run) [⟨true, true, true, true, 0x90032⟩]))).isSome = true ∧
    hostWord .rdPhase = some 0x30000#20 := by decide
theorem witness_FailedTimebaseHaltsForEver : 2 ≤ [(true, true), (true, true)].length := by decide
theorem witness_ReferenceHostNeverStops : [(true, true)] ≠ [] := by decide
theorem witness_ReferenceHostWritesPercentages : [(true, true)] ≠ [] ∧ ∀ k : Nat, (fun j => j % 4096) k ≤ 4095 :=
  ⟨by decide, fun k => Nat.le_of_lt_succ (Nat.mod_lt k (by decide))⟩

end Sys2Proof.Tests
end

section
/-! SUPPORT. How a clock cycle is run (00_scope.md R13 to R15): lists of operations, a step with and without reset, and
the step as a function of the seven elements. -/

namespace Sys2Proof.Machine

/-! ## Runs of operations -/

@[simp] theorem andThen_next (s : State) (f : State → Result) : andThen (.next s) f = f s := rfl

theorem andThen_assoc (r : Result) (f g : State → Result) :
    andThen (andThen r f) g = andThen r fun s => andThen (f s) g := by
  cases r <;> rfl

@[simp] theorem runOps_nil (s : State) : runOps [] s = .next s := rfl

@[simp] theorem runOps_singleton (i : Instr) (s : State) : runOps [i] s = exec i s := by
  rw [runOps, exec_eq]
  rfl

theorem runOps_append (is js : List Instr) (s : State) :
    runOps (is ++ js) s = andThen (runOps is s) (runOps js) := by
  induction is generalizing s with
  | nil => rfl
  | cons i is ih =>
    have tail_append : runOps (is ++ js) = fun t => andThen (runOps is t) (runOps js) := funext ih
    rw [List.cons_append, runOps, runOps, andThen_assoc, tail_append]

/-! ## One part of a cycle: an operation that occurs under a condition -/

/-- An operation never stops, so a part of a cycle always leaves a state. -/
theorem exists_conditional_exec (c : Prop) [Decidable c] (i : Instr) (s : State) :
    ∃ t, if c then exec i s = .next t else t = s := by
  split
  · exact ⟨_, exec_eq i s⟩
  · exact ⟨s, rfl⟩

/-- The run of an operation that occurs under a condition ends in the state the part leaves. -/
theorem runOps_conditional {c : Prop} [Decidable c] {i : Instr} {s t : State}
    (h : if c then exec i s = .next t else t = s) : runOps (if c then [i] else []) s = .next t := by
  split at h
  · next hc => rw [if_pos hc, runOps_singleton, h]
  · next hc => rw [if_neg hc, h, runOps_nil]

/-- Parts 1 and 2 are MS_TICK and then PWM_TICK, each if its strobe is 1. -/
theorem eventStage_of_ticks {i : Inputs} {s s1 s2 : State}
    (hms : if i.msTick then exec .msTick s = .next s1 else s1 = s)
    (hpwm : if i.pwmTick then exec .pwmTick s1 = .next s2 else s2 = s1) : eventStage i s = .next s2 := by
  rw [eventStage, Laws.decodeEvent_eventVector, runOps_append, runOps_conditional hms, andThen_next,
    runOps_conditional hpwm]

/-- Part 3 is SEQ_STEP if SeqState is ARMING. -/
theorem sequencerStage_of_seqStep {s t : State}
    (h : if s.block.seqState = .arming then exec .seqStep s = .next t else t = s) : sequencerStage s = .next t := by
  have selected : (decodeSelector s.block.seqState.code).toList =
      if s.block.seqState = .arming then [.seqStep] else [] := by
    rw [Laws.decodeSelector_code]
    split <;> rfl
  rw [sequencerStage, selected, runOps_conditional h]

/-- Part 4 leaves what the decoded command leaves, or the refusal of a reserved word. -/
theorem exists_hostStage (i : Inputs) (s : State) :
    ∃ t, (if i.hValid then
        (∀ c, decodeHost i.hCmd = .ok c → exec c s = .next t) ∧
        (∀ r, decodeHost i.hCmd = .error r → t = { s with response := some ⟨.errReserved, 0⟩ })
      else t = s) ∧ hostStage i s = .next t := by
  unfold hostStage
  split
  · unfold hostCommand
    cases decodeHost i.hCmd with
    | ok c => exact ⟨_, ⟨by rintro _ ⟨⟩; exact exec_eq c s, nofun⟩, exec_eq c s⟩
    | error k => exact ⟨_, ⟨nofun, fun _ _ => rfl⟩, rfl⟩
  · exact ⟨s, rfl, rfl⟩

/-- Part 4 is the run of at most one operation when no reserved word is presented. -/
theorem hostStage_eq_runOps {i : Inputs} (h : i.hValid = true → ∃ c, decodeHost i.hCmd = .ok c) :
    ∃ ops : List Instr, ops.length ≤ 1 ∧ hostStage i = runOps ops := by
  cases hv : i.hValid with
  | false => exact ⟨[], Nat.zero_le 1, funext fun s => by simp [hostStage, hv]⟩
  | true =>
    obtain ⟨c, hc⟩ := h hv
    exact ⟨[c], Nat.le_refl 1, funext fun s => by simp [hostStage, hostCommand, hv, hc]⟩

/-! ## The step -/

theorem step_of_reset {s : State} (h : s.nextInputs.rst = true) :
    step s = .next { s.beginCycle with block := Block.reset } := by
  rw [step, clockCycle, if_pos h]
  rfl

theorem step_of_noReset {s : State} (h : s.nextInputs.rst = false) :
    step s = andThen (eventStage s.nextInputs s.beginCycle) fun s1 =>
      andThen (sequencerStage s1) (hostStage s.nextInputs) := by
  rw [step, clockCycle, if_neg (by simp [h])]

/-- The cycle goes on from the block after the ticks and the sequencer's step. -/
theorem afterSequencer_andThen (i : Inputs) (s : State) (h : s.response = none) (f : State → Result) :
    andThen (eventStage i s) (fun s1 => andThen (sequencerStage s1) f) =
      f (s.withBlock (afterSequencer Config.params s.block i)) := by
  rw [eventStage_eq i s h, andThen_next, sequencerStage_eq _ rfl, andThen_next]
  rfl

/-- What a step does: the block's cycle on the seven elements, with the cycle's inputs taken. -/
theorem step_eq_blockCycle (s : State) :
    step s = .next { s.beginCycle with
      block := (blockCycle Config.params s.block s.nextInputs).1
      response := (blockCycle Config.params s.block s.nextInputs).2 } := by
  cases hr : s.nextInputs.rst with
  | true =>
    rw [step_of_reset hr, blockCycle, if_pos hr]
    rfl
  | false =>
    rw [step_of_noReset hr, afterSequencer_andThen _ _ rfl]
    cases hv : s.nextInputs.hValid <;>
      simp [hostStage, blockCycle, hr, hv, hostCommand_eq, State.withBlock]

/-- A cycle without a host command does not read `h_cmd`. -/
theorem clockCycle_ignores_hCmd {i : Inputs} (h : i.hValid = false) (w : CmdWord) :
    clockCycle { i with hCmd := w } = clockCycle i := by
  have host_same : hostStage { i with hCmd := w } = hostStage i := funext fun s => by simp [hostStage, h]
  funext s
  rw [clockCycle, clockCycle, host_same]
  rfl

end Sys2Proof.Machine
end

section
/-! The statements of 00_scope.md. -/

open Sys2Proof Sys2Proof.Machine

/-- Settles O2: a step is the block's cycle (`step_eq_blockCycle`), which `clockStep` is with its outputs. -/
theorem stepIsTheClockStepFunction : Obligations.StepIsTheClockStepFunction := fun s =>
  ⟨_, step_eq_blockCycle s, rfl, rfl, rfl⟩

/-- Settles O3: the ticks, SEQ_STEP and the host command, in one list. SEQ_STEP can be chosen before the ticks have run,
for they leave the mode as it is. -/
theorem cycleIsASequenceOfOperations : Obligations.CycleIsASequenceOfOperations := by
  intro s hr hok
  obtain ⟨cmd, hlen, hcmd⟩ := hostStage_eq_runOps hok
  refine ⟨decodeEvent (eventVector s.nextInputs) ++ ((decodeSelector s.block.seqState.code).toList ++ cmd), ?_, ?_⟩
  · have event_le : (decodeEvent (eventVector s.nextInputs)).length ≤ 2 := by
      rw [Laws.decodeEvent_eventVector]
      split <;> split <;> decide
    have selector_le : (decodeSelector s.block.seqState.code).toList.length ≤ 1 := by
      rw [Laws.decodeSelector_code]
      split <;> decide
    simp only [List.length_append]
    omega
  · have ticks := eventStage_eq s.nextInputs s.beginCycle rfl
    rw [step_of_noReset hr, runOps_append, ← eventStage, ticks, andThen_next, andThen_next, runOps_append, hcmd,
      sequencerStage, State.withBlock_block, afterTicks_seqState, State.beginCycle_block]

/-- Settles O1: every part leaves a state, and the step is the parts in order. -/
theorem stepRunsTheDecodedOperations : Obligations.StepRunsTheDecodedOperations := by
  refine fun s => ⟨step_of_reset, fun hr => ?_⟩
  obtain ⟨s1, hms⟩ := exists_conditional_exec s.nextInputs.msTick .msTick s.beginCycle
  obtain ⟨s2, hpwm⟩ := exists_conditional_exec s.nextInputs.pwmTick .pwmTick s1
  obtain ⟨s3, hseq⟩ := exists_conditional_exec (s2.block.seqState = .arming) .seqStep s2
  obtain ⟨s4, hcmd, hhost⟩ := exists_hostStage s.nextInputs s3
  refine ⟨s1, s2, s3, s4, hms, hpwm, hseq, hcmd, ?_⟩
  rw [step_of_noReset hr, eventStage_of_ticks hms hpwm, andThen_next, sequencerStage_of_seqStep hseq,
    andThen_next, hhost]

/-- Settles O4: the host's part reads `h_cmd` only with `h_valid`, and a reset step is the same for all inputs. -/
theorem unreadInputsDoNotMatter : Obligations.UnreadInputsDoNotMatter := by
  intro s i j
  constructor
  · intro hv
    simp only [step, State.present_nextInputs, State.present_beginCycle, clockCycle_ignores_hCmd hv]
  · intro hi hj
    rw [step_of_reset (s := s.present i) hi, step_of_reset (s := s.present j) hj, State.present_beginCycle,
      State.present_beginCycle]

end

section
/-! SUPPORT. The seven elements under an operation and under a cycle (10_state.md R22, R27, R29): the invariant, the
owner of each element, the mode, and what the registers expose. -/

namespace Sys2Proof.Machine

variable {p : Params} {b : Block}

/-! ## From the machine to the block -/

theorem block_of_exec {i : Instr} {s t : State} (h : exec i s = .next t) :
    t.block = (applyOp Config.params i s.block).1 := by
  rw [exec_eq] at h
  cases h
  rfl

theorem block_of_step {s t : State} (h : step s = .next t) :
    t.block = (blockCycle Config.params s.block s.nextInputs).1 := by
  rw [step_eq_blockCycle] at h
  cases h
  rfl

/-- What reset establishes and every operation keeps, a cycle keeps (00_scope.md R14). -/
theorem blockCycle_keeps {P : Block → Prop} (reset : P Block.reset)
    (keep : ∀ (c : Instr) (b : Block), P b → P (applyOp p c b).1) (i : Inputs) (hb : P b) :
    P (blockCycle p b i).1 := by
  cases hr : i.rst with
  | true => simpa [blockCycle, hr] using reset
  | false =>
    have ticks : P (afterTicks p b i) := by
      have ms : P (if i.msTick then opMsTick b else b) := by
        split
        · exact keep .msTick b hb
        · exact hb
      dsimp only [afterTicks]
      split
      · exact keep .pwmTick _ ms
      · exact ms
    have seq : P (afterSequencer p b i) := by
      dsimp only [afterSequencer]
      split
      · exact keep .seqStep _ ticks
      · exact ticks
    obtain h | ⟨-, c, -, h⟩ := blockCycle_cases p b i hr <;> rw [h]
    · exact seq
    · exact keep c _ seq

/-! ## The invariant (R29, log entry 11) -/

theorem Block.reset_inv (hp : p.wf) : Block.reset.Inv p where
  phaseInRange := Laws.wavePeriod_pos hp
  iterInRange := Nat.zero_le _
  idleIsInitial _ := ⟨rfl, rfl, rfl, rfl⟩
  haltedIsInitial := nofun
  armingPhase := nofun
  runIsArmed := nofun
  driveLine := nofun
  holdLine := nofun
  holdCounts := nofun
  holdWasServed := nofun

/-- DutyTime is free, and ElapsedMillis may grow, or do anything outside ARMING. -/
theorem Block.Inv.with_duty_millis (h : b.Inv p) (d : Word16) (m : Word32)
    (grows : b.seqState = .arming → b.elapsedMillis.toNat ≤ m.toNat) :
    ({ b with dutyTime := d, elapsedMillis := m } : Block).Inv p where
  toLegal := ⟨h.phaseInRange, h.iterInRange, h.idleIsInitial, h.haltedIsInitial, h.armingPhase, h.runIsArmed,
    h.driveLine, h.holdLine⟩
  holdCounts := h.holdCounts
  holdWasServed ha hd hi := (h.holdWasServed ha hd hi).trans (grows ha)

theorem Block.Inv.incrementMillis (h : b.Inv p) : b.incrementMillis.Inv p :=
  h.with_duty_millis _ _ fun _ => by
    have := b.elapsedMillis.isLt
    refine le_of_le_of_eq ?_ b.incrementMillis_toNat.symm
    omega

theorem Block.Inv.clearMillis (h : b.Inv p) (hm : b.seqState = .idle ∨ b.seqState = .run) : b.clearMillis.Inv p :=
  h.with_duty_millis _ _ fun ha => by simp [ha] at hm

/-- BOOT #1 starts arming from the initial elements of IDLE (R29 c). -/
theorem Block.Inv.bootArms (h : b.Inv p) (hm : b.seqState = .idle) :
    ({ b with seqState := .arming, seqPhase := .drive, iterCount := 0 } : Block).Inv p := by
  obtain ⟨-, -, phase, line⟩ := h.idleIsInitial hm
  exact {
    phaseInRange := h.phaseInRange
    iterInRange := Nat.zero_le _
    idleIsInitial := nofun
    haltedIsInitial := nofun
    armingPhase := fun _ => phase
    runIsArmed := nofun
    driveLine := fun _ _ => line
    holdLine := nofun
    holdCounts := nofun
    holdWasServed := fun _ _ hi => absurd rfl hi }

/-- The fault halts the initial elements of IDLE, which are those of HALTED (R29 c, d). -/
theorem Block.Inv.raiseHalt (h : b.Inv p) (hm : b.seqState = .idle) : b.raiseHalt.Inv p where
  phaseInRange := h.phaseInRange
  iterInRange := h.iterInRange
  idleIsInitial := nofun
  haltedIsInitial _ := h.idleIsInitial hm
  armingPhase := nofun
  runIsArmed := nofun
  driveLine := nofun
  holdLine := nofun
  holdCounts := nofun
  holdWasServed := nofun

/-- A tick in RUN moves PhaseCounter within the period, and RUN leaves the line free. -/
theorem opPwmTick_keeps_inv (hp : p.wf) (h : b.Inv p) : (opPwmTick p b).Inv p := by
  by_cases hm : b.seqState = .run
  · rw [opPwmTick_run p hm]
    have other : ∀ m, m ≠ .run → b.seqState ≠ m := fun m hne => hm ▸ hne.symm
    exact {
      phaseInRange := b.nextPhase_lt hp
      iterInRange := h.iterInRange
      idleIsInitial := fun hs => absurd hs (other _ nofun)
      haltedIsInitial := fun hs => absurd hs (other _ nofun)
      armingPhase := fun hs => absurd hs (other _ nofun)
      runIsArmed := h.runIsArmed
      driveLine := fun hs => absurd hs (other _ nofun)
      holdLine := fun hs => absurd hs (other _ nofun)
      holdCounts := fun hs => absurd hs (other _ nofun)
      holdWasServed := fun hs => absurd hs (other _ nofun) }
  · rwa [opPwmTick_other p hm]

/-! The cases of SEQ_STEP. In ARMING the clauses of the other modes say nothing. -/

theorem Block.Inv.finishCase (h : b.Inv p) (hd : b.seqPhase = .drive) (hi : b.iterCount.toNat = p.armIterations) :
    b.finishCase.Inv p where
  phaseInRange := h.phaseInRange
  iterInRange := h.iterInRange
  idleIsInitial := nofun
  haltedIsInitial := nofun
  armingPhase := nofun
  runIsArmed _ := ⟨hi, hd⟩
  driveLine := nofun
  holdLine := nofun
  holdCounts := nofun
  holdWasServed := nofun

/-- The drive case toggles the line, so that it is as (g) wants it in the hold of the same iteration. -/
theorem Block.Inv.driveCase (h : b.Inv p) (hm : b.seqState = .arming) (hd : b.seqPhase = .drive)
    (hi : b.iterCount.toNat ≠ p.armIterations) : b.driveCase.Inv p where
  phaseInRange := h.phaseInRange
  iterInRange := h.iterInRange
  idleIsInitial hs := by simp [hm] at hs
  haltedIsInitial hs := by simp [hm] at hs
  armingPhase _ := h.armingPhase hm
  runIsArmed hs := by simp [hm] at hs
  driveLine := nofun
  holdLine _ _ := by
    rw [driveCase_outLine, driveCase_iterCount, h.driveLine hm hd, ← decide_not]
    exact decide_eq_decide.2 Nat.mod_two_ne_one
  holdCounts _ _ := lt_of_le_of_ne h.iterInRange hi
  holdWasServed := nofun

/-- A hold belongs to an iteration not yet completed, so the end of it keeps IterCount in range and in 16 bits. -/
theorem Block.Inv.endHold (hp : p.wf) (h : b.Inv p) (hm : b.seqState = .arming) (hh : b.seqPhase = .hold)
    (served : b.holdTarget p ≤ b.elapsedMillis.toNat) : b.endHold.Inv p := by
  have more := h.holdCounts hm hh
  obtain ⟨-, -, -, ⟨-, -, fits⟩, -⟩ := hp
  have count : b.endHold.iterCount.toNat = b.iterCount.toNat + 1 := by
    simp only [endHold_iterCount, BitVec.toNat_add, BitVec.toNat_ofNat]
    omega
  exact {
    phaseInRange := h.phaseInRange
    iterInRange := by omega
    idleIsInitial := fun hs => by simp [hm] at hs
    haltedIsInitial := fun hs => by simp [hm] at hs
    armingPhase := fun _ => h.armingPhase hm
    runIsArmed := fun hs => by simp [hm] at hs
    driveLine := fun _ _ => by
      rw [endHold_outLine, count, h.holdLine hm hh]
      exact decide_eq_decide.2 (by omega)
    holdLine := nofun
    holdCounts := nofun
    holdWasServed := fun _ _ _ => served }

theorem opSeqStep_keeps_inv (hp : p.wf) (h : b.Inv p) : (opSeqStep p b).Inv p := by
  obtain ⟨-, e⟩ | ⟨-, hd, hi, e⟩ | ⟨hm, hd, hi, e⟩ | ⟨hm, hh, served, e⟩ | ⟨-, -, -, e⟩ := opSeqStep_cases p b <;> rw [e]
  · exact h
  · exact h.finishCase hd hi
  · exact h.driveCase hm hd hi
  · exact h.endHold hp hm hh served
  · exact h

/-- Every host command keeps the invariant. -/
theorem applyOp_host_keeps_inv (h : b.Inv p) {c : Instr} (hc : c.format = .host) : (applyOp p c b).1.Inv p := by
  obtain ⟨-, -, e | ⟨v, -, -, e⟩ | ⟨-, hm, e⟩ | ⟨-, hm, e⟩ | ⟨-, hm, e⟩⟩ := applyOp_host_cases p c b hc <;> rw [e]
  · exact h
  · exact h.with_duty_millis v _ fun _ => Nat.le_refl _
  · exact h.clearMillis hm
  · exact h.bootArms hm
  · exact h.raiseHalt hm

theorem applyOp_keeps_inv (hp : p.wf) (c : Instr) (h : b.Inv p) : (applyOp p c b).1.Inv p :=
  match c with
  | .msTick => h.incrementMillis
  | .pwmTick => opPwmTick_keeps_inv hp h
  | .seqStep => opSeqStep_keeps_inv hp h
  | .rdStatus | .rdDuty | .rdMillis | .rdPhase | .boot _ | .wrDuty _ | .clrMillis => applyOp_host_keeps_inv h rfl

theorem blockCycle_keeps_inv (hp : p.wf) (h : b.Inv p) (i : Inputs) : (blockCycle p b i).1.Inv p :=
  blockCycle_keeps (Block.reset_inv hp) (fun c _ => applyOp_keeps_inv hp c) i h

theorem step_keeps_inv {s t : State} (h : s.block.Inv Config.params) (hst : step s = .next t) :
    t.block.Inv Config.params := by
  rw [block_of_step hst]
  exact blockCycle_keeps_inv Laws.config_params_wf h _

theorem Reachable.inv {s : State} (h : Reachable s) : s.block.Inv Config.params := by
  induction h with
  | start s hs => exact hs ▸ Block.reset_inv Laws.config_params_wf
  | step s t _ hst ih => exact step_keeps_inv ih hst

/-! ## Ownership (R27) -/

theorem Element.same_refl (e : Element) (b : Block) : e.Same b b := by
  cases e <;> rfl

theorem opMsTick_same {e : Element} (hn : ¬ MayWrite p .msTick b e) : e.Same (opMsTick b) b := by
  have unowned : e ≠ .elapsedMillis := hn
  cases e <;> simp_all [Element.Same, opMsTick]

theorem opPwmTick_same {e : Element} (hn : ¬ MayWrite p .pwmTick b e) : e.Same (opPwmTick p b) b := by
  by_cases hm : b.seqState = .run
  · have unowned : e ≠ .phaseCounter ∧ e ≠ .outLine := not_or.1 fun he => hn ⟨hm, he⟩
    cases e <;> simp_all [Element.Same]
  · rw [opPwmTick_other p hm]
    exact Element.same_refl e b

theorem opSeqStep_same {e : Element} (hn : ¬ MayWrite p .seqStep b e) : e.Same (opSeqStep p b) b := by
  obtain ⟨-, h⟩ | ⟨hm, hd, hi, h⟩ | ⟨hm, hd, hi, h⟩ | ⟨hm, hh, -, h⟩ | ⟨-, -, -, h⟩ := opSeqStep_cases p b <;> rw [h]
  · exact Element.same_refl e b
  · have unowned : e ≠ .seqState := fun he => hn ⟨hm, .inl ⟨hd, hi, he⟩⟩
    cases e <;> simp_all [Element.Same]
  · have unowned : ¬ (e = .outLine ∨ e = .elapsedMillis ∨ e = .seqPhase) := fun he =>
      hn ⟨hm, .inr (.inl ⟨hd, hi, he⟩)⟩
    cases e <;> simp_all [Element.Same]
  · have unowned : ¬ (e = .iterCount ∨ e = .seqPhase) := fun he => hn ⟨hm, .inr (.inr ⟨hh, he⟩)⟩
    cases e <;> simp_all [Element.Same]
  · exact Element.same_refl e b

theorem applyOp_host_same {c : Instr} (hc : c.format = .host) {e : Element} (hn : ¬ MayWrite p c b e) :
    e.Same (applyOp p c b).1 b := by
  obtain ⟨-, -, h | ⟨v, rfl, hm, h⟩ | ⟨rfl, hm, h⟩ | ⟨rfl, hm, h⟩ | ⟨rfl, hm, h⟩⟩ := applyOp_host_cases p c b hc <;>
    rw [h]
  · exact Element.same_refl e b
  · have unowned : e ≠ .dutyTime := fun he => hn ⟨hm, he⟩
    cases e <;> simp_all [Element.Same]
  · have unowned : e ≠ .elapsedMillis := fun he => hn ⟨hm, he⟩
    cases e <;> simp_all [Element.Same]
  · have unowned : ¬ (e = .seqState ∨ e = .seqPhase ∨ e = .iterCount) := fun he => hn ⟨hm, he⟩
    cases e <;> simp_all [Element.Same]
  · have unowned : ¬ (e = .seqState ∨ e = .seqPhase ∨ e = .iterCount) := fun he => hn ⟨hm, he⟩
    cases e <;> simp_all [Element.Same]

/-- The frame of all ten operations. -/
theorem applyOp_same (c : Instr) {e : Element} (hn : ¬ MayWrite p c b e) : e.Same (applyOp p c b).1 b :=
  match c with
  | .msTick => opMsTick_same hn
  | .pwmTick => opPwmTick_same hn
  | .seqStep => opSeqStep_same hn
  | .rdStatus | .rdDuty | .rdMillis | .rdPhase | .boot _ | .wrDuty _ | .clrMillis => applyOp_host_same rfl hn

/-! ## The mode (R22) -/

/-- A command takes the block out of IDLE only if it is a BOOT. -/
theorem applyOp_host_seqState_idle {c : Instr} (hc : c.format = .host) (hm : b.seqState = .idle) :
    (applyOp p c b).1.seqState = if c = .boot 1#1 then .arming else if c = .boot 0#1 then .halted else .idle := by
  cases c with
  | msTick | pwmTick | seqStep => cases hc
  | rdStatus | rdDuty | rdMillis | rdPhase => exact hm
  | wrDuty v => simp [applyOp, opWrDuty, hm]
  | clrMillis => simp [applyOp, opClrMillis, hm]
  | boot t =>
    have ht : t = 0#1 ∨ t = 1#1 := by revert t; decide
    obtain rfl | rfl := ht <;> simp [applyOp, opBoot, timebaseOk, hm]

/-- No command takes the block out of another mode. -/
theorem applyOp_host_seqState {c : Instr} (hc : c.format = .host) (hm : b.seqState ≠ .idle) :
    (applyOp p c b).1.seqState = b.seqState := by
  obtain ⟨-, -, e | ⟨v, -, -, e⟩ | ⟨-, -, e⟩ | ⟨-, hi, -⟩ | ⟨-, hi, -⟩⟩ := applyOp_host_cases p c b hc
  · rw [e]
  · rw [e]
  · rw [e]; rfl
  · exact absurd hi hm
  · exact absurd hi hm

theorem afterSequencer_of_not_arming (p : Params) (i : Inputs) (hm : b.seqState ≠ .arming) :
    afterSequencer p b i = afterTicks p b i :=
  if_neg (by rwa [afterTicks_seqState])

theorem afterSequencer_seqState_of_not_arming (p : Params) (i : Inputs) (hm : b.seqState ≠ .arming) :
    (afterSequencer p b i).seqState = b.seqState := by
  rw [afterSequencer_of_not_arming p i hm, afterTicks_seqState]

/-- The ticks write neither SeqPhase nor IterCount, so the finish case shows at the beginning of the cycle. -/
theorem afterSequencer_seqState_of_arming (p : Params) (i : Inputs) (hm : b.seqState = .arming) :
    (afterSequencer p b i).seqState =
      if b.seqPhase = .drive ∧ b.iterCount.toNat = p.armIterations then .run else .arming := by
  have phase : (afterTicks p b i).seqPhase = b.seqPhase := by
    rw [afterTicks_arming p b i hm]; split <;> rfl
  have count : (afterTicks p b i).iterCount = b.iterCount := by
    rw [afterTicks_arming p b i hm]; split <;> rfl
  have mode : (afterTicks p b i).seqState = .arming := by rw [afterTicks_seqState, hm]
  have sequencer : afterSequencer p b i = opSeqStep p (afterTicks p b i) := if_pos mode
  rw [sequencer, ← phase, ← count]
  obtain ⟨h, -⟩ | ⟨-, hd, hi, h⟩ | ⟨-, hd, hi, h⟩ | ⟨-, hh, -, h⟩ | ⟨-, hh, -, h⟩ := opSeqStep_cases p (afterTicks p b i)
  · exact absurd mode h
  · simp [h, hd, hi]
  · simp [h, hi, hm]
  · simp [h, hh, hm]
  · simp [h, hh, hm]

theorem blockCycle_seqState_of_idle {i : Inputs} (hr : i.rst = false) (hm : b.seqState = .idle) :
    (blockCycle p b i).1.seqState =
      if i.hValid = true ∧ decodeHost i.hCmd = .ok (.boot 1#1) then .arming
      else if i.hValid = true ∧ decodeHost i.hCmd = .ok (.boot 0#1) then .halted else .idle := by
  have mode : (afterSequencer p b i).seqState = .idle := by
    rw [afterSequencer_seqState_of_not_arming p i (by simp [hm]), hm]
  cases hv : i.hValid with
  | false => simp [blockCycle, hr, hv, mode]
  | true =>
    cases hd : decodeHost i.hCmd with
    | error k => simp [blockCycle, applyWord, hr, hv, hd, mode]
    | ok c => simp [blockCycle, applyWord, hr, hv, hd, applyOp_host_seqState_idle (decodeHost_format hd) mode]

/-- Once the sequencer's step leaves a mode other than IDLE, the command leaves it too. -/
theorem blockCycle_seqState_of_not_idle {i : Inputs} (hr : i.rst = false)
    (hm : (afterSequencer p b i).seqState ≠ .idle) :
    (blockCycle p b i).1.seqState = (afterSequencer p b i).seqState := by
  obtain h | ⟨-, c, hc, h⟩ := blockCycle_cases p b i hr <;> rw [h]
  exact applyOp_host_seqState (decodeHost_format hc) hm

theorem blockCycle_seqState_of_arming {i : Inputs} (hr : i.rst = false) (hm : b.seqState = .arming) :
    (blockCycle p b i).1.seqState =
      if b.seqPhase = .drive ∧ b.iterCount.toNat = p.armIterations then .run else .arming := by
  have mode := afterSequencer_seqState_of_arming p i hm
  rw [blockCycle_seqState_of_not_idle hr (by rw [mode]; split <;> nofun), mode]

theorem blockCycle_seqState_of_run_or_halted {i : Inputs} (hr : i.rst = false)
    (hm : b.seqState = .run ∨ b.seqState = .halted) : (blockCycle p b i).1.seqState = b.seqState := by
  have mode : (afterSequencer p b i).seqState = b.seqState :=
    afterSequencer_seqState_of_not_arming p i fun ha => by simp [ha] at hm
  rw [blockCycle_seqState_of_not_idle hr (fun hi => by simp [mode ▸ hi] at hm), mode]

/-! ## What the registers expose (R31, R35) -/

theorem bits_append_inj {m n : Nat} {x x' : BitVec m} {y y' : BitVec n} (h : x ++ y = x' ++ y') : x = x' ∧ y = y' :=
  ⟨by simpa only [BitVec.extractLsb'_append_eq_left] using congrArg (BitVec.extractLsb' n m) h,
    by simpa only [BitVec.setWidth_append_eq_right] using congrArg (BitVec.setWidth n) h⟩

theorem SeqState.code_injective : Function.Injective SeqState.code := by
  intro m n; cases m <;> cases n <;> decide

theorem SeqPhase.code_injective : Function.Injective SeqPhase.code := by
  intro m n; cases m <;> cases n <;> decide

/-- STATUS is a concatenation, so equal words have equal fields. -/
theorem fields_of_status {c : Block} (h : b.status = c.status) :
    b.iterCount = c.iterCount ∧ b.outLine = c.outLine ∧ b.seqPhase = c.seqPhase ∧ b.seqState = c.seqState := by
  obtain ⟨iter, h⟩ := bits_append_inj h
  obtain ⟨-, h⟩ := bits_append_inj h
  obtain ⟨line, h⟩ := bits_append_inj h
  obtain ⟨-, h⟩ := bits_append_inj h
  obtain ⟨phase, mode⟩ := bits_append_inj h
  exact ⟨iter, BitVec.ofBool_eq_iff_eq.1 line, SeqPhase.code_injective phase, SeqState.code_injective mode⟩

/-- A 16-bit element is read whole. -/
theorem setWidth_32_injective : Function.Injective fun w : Word16 => w.setWidth 32 := fun v w h => by
  simpa using congrArg (BitVec.setWidth 16) h

/-! ## Responses (R28) -/

theorem applyOp_response_of_not_host {c : Instr} (hc : c.format ≠ .host) : (applyOp p c b).2 = none := by
  cases c with
  | msTick | pwmTick | seqStep => rfl
  | rdStatus | rdDuty | rdMillis | rdPhase | boot | wrDuty | clrMillis => exact absurd rfl hc

end Sys2Proof.Machine
end

section
/-! The statements of 10_state.md. -/

open Sys2Proof Sys2Proof.Machine

/-- Settles O7: IDLE with its initial elements. -/
theorem invariantHoldsAtReset : Obligations.InvariantHoldsAtReset := Block.reset_inv Laws.config_params_wf

/-- Settles O8: reset establishes the invariant, and each operation of a cycle keeps it. -/
theorem stepKeepsInvariant : Obligations.StepKeepsInvariant := fun _ _ => step_keeps_inv

/-- Settles O9: the invariant of every reachable state contains the seven clauses. -/
theorem reachableStatesAreLegal : Obligations.ReachableStatesAreLegal := fun _ h => h.inv.toLegal

/-- Settles O5: the ticks keep the mode, SEQ_STEP changes it in the finish case only, and a command only from IDLE. -/
theorem modesChangeOnlyByBootFinishAndReset : Obligations.ModesChangeOnlyByBootFinishAndReset := by
  intro s t h
  rw [block_of_step h]
  refine ⟨fun hr => ?_, fun hr => ⟨blockCycle_seqState_of_idle hr, blockCycle_seqState_of_arming hr, fun hm => ?_,
    fun hm => ?_⟩⟩
  · rw [blockCycle, if_pos hr]
    rfl
  · rw [blockCycle_seqState_of_run_or_halted hr (.inl hm), hm]
  · rw [blockCycle_seqState_of_run_or_halted hr (.inr hm), hm]

/-- Settles O6: the block of an operation is framed by the ownership table (`applyOp_same`), and nothing but the block and
the response is written. -/
theorem operationsWriteOnlyWhatTheyOwn : Obligations.OperationsWriteOnlyWhatTheyOwn := by
  intro i s t h
  rw [exec_eq] at h
  cases h
  exact ⟨fun e hn => applyOp_same i hn, rfl, rfl⟩

/-- Settles O10: STATUS gives four elements, the other three registers one each. -/
theorem readsExposeTheWholeState : Obligations.ReadsExposeTheWholeState := by
  intro b c h
  obtain ⟨iter, line, phase, mode⟩ := fields_of_status (h .status)
  have duty := setWidth_32_injective (h .duty)
  have millis : b.elapsedMillis = c.elapsedMillis := h .millis
  have counter := setWidth_32_injective (h .phase)
  cases b
  cases c
  exact (Block.mk.injEq ..).mpr ⟨counter, duty, millis, line, mode, phase, iter⟩

/-- Settles O11: `exec` and `step` give the response anew, and a tick or SEQ_STEP gives none. -/
theorem responsesAreNotStored : Obligations.ResponsesAreNotStored := by
  refine fun s r => ⟨fun i => exec_forgets_response i s r, step_forgets_response s r, fun i t hi h => ?_⟩
  rw [exec_eq] at h
  cases h
  exact applyOp_response_of_not_host hi

end

section
/-! SUPPORT. Where DutyTime and the line come from (20_memory.md R49, R55): the word of a command decodes to that command,
a cycle that presents a command runs it after the sequencer's step, only WR_DUTY writes DutyTime, and the line after a
PWM_TICK is that of the duty time before the cycle. -/

namespace Sys2Proof.Machine

variable {p : Params} {b : Block} {i : Inputs}

/-! ## The word of a command (30_encoding.md R62, R66) -/

/-- A word of the WR_DUTY row belongs to no row before it. -/
theorem decodeHost_of_duty_row {w : CmdWord} (h : w.toNat / 65536 = 9) : decodeHost w = .ok (.wrDuty w.data) := by
  have not_whole (c : CmdWord) (hc : c.toNat / 65536 ≠ 9) : (w &&& 0xFFFFF#20 == c) = false :=
    Bool.eq_false_iff.2 fun hw => hc ((Laws.accepts_whole w c).1 hw ▸ h)
  have not_boot : (w &&& 0xFFFFE#20 == 0x80000#20) = false := Bool.eq_false_iff.2 fun hw => by
    have := (Laws.accepts_boot w).1 hw
    omega
  have duty : (w &&& 0xF0000#20 == 0x90000#20) = true := (Laws.accepts_duty w).2 h
  have row : hostRows.find? (fun r => r.accepts w) = some ⟨0x90000#20, 0xF0000#20, fun d => .wrDuty d⟩ := by
    simp only [hostRows, List.find?_cons, HostRow.accepts, not_whole 0x00000#20 (by decide),
      not_whole 0x10000#20 (by decide), not_whole 0x20000#20 (by decide), not_whole 0x30000#20 (by decide), not_boot,
      duty]
  rw [decodeHost, row]

/-- The word of WR_DUTY is the row's number with the operand in the DATA field, without a carry. -/
theorem wrDutyWord_toNat (v : Word16) : (0x90000#20 + v.setWidth 20).toNat = 0x90000 + v.toNat := by
  have := v.isLt
  simp only [BitVec.toNat_add, BitVec.toNat_setWidth, BitVec.toNat_ofNat]
  omega

theorem decodeHost_hostWord {c : Instr} {w : CmdWord} (h : hostWord c = some w) : decodeHost w = .ok c := by
  cases c with
  | msTick | pwmTick | seqStep => cases h
  | rdStatus | rdDuty | rdMillis | rdPhase | clrMillis => cases h; rfl
  | boot t => cases h; revert t; decide
  | wrDuty v =>
    cases h
    have hv := v.isLt
    have word := wrDutyWord_toNat v
    have data : CmdWord.data (0x90000#20 + v.setWidth 20) = v := BitVec.eq_of_toNat_eq (by
      rw [Laws.data_toNat, word]
      omega)
    rw [decodeHost_of_duty_row (by omega), data]

/-! ## A command in its cycle (00_scope.md R14) -/

theorem blockCycle_of_command {c : Instr} (hr : i.rst = false) (hv : i.hValid = true)
    (hc : decodeHost i.hCmd = .ok c) : blockCycle p b i = applyOp p c (afterSequencer p b i) := by
  simp [blockCycle, applyWord, hr, hv, hc]

/-- HALTED is entered by a command only. -/
theorem afterSequencer_ne_halted (hm : b.seqState ≠ .halted) : (afterSequencer p b i).seqState ≠ .halted := by
  by_cases ha : b.seqState = .arming
  · rw [afterSequencer_seqState_of_arming p i ha]
    split <;> nofun
  · rwa [afterSequencer_seqState_of_not_arming p i ha]

theorem applyOp_wrDuty_of_not_halted (v : Word16) (hm : b.seqState ≠ .halted) :
    applyOp p (.wrDuty v) b = ({ b with dutyTime := v }, some (okay 0#32)) := by
  cases hs : b.seqState with
  | halted => exact absurd hs hm
  | idle | arming | run => simp [applyOp, opWrDuty, hs]

/-! ## DutyTime over a cycle and over a run -/

@[simp] theorem afterTicks_dutyTime (p : Params) (b : Block) (i : Inputs) : (afterTicks p b i).dutyTime = b.dutyTime := by
  unfold afterTicks
  simp only [opMsTick]
  split <;> split <;> simp

@[simp] theorem afterSequencer_dutyTime (p : Params) (b : Block) (i : Inputs) :
    (afterSequencer p b i).dutyTime = b.dutyTime := by
  dsimp only [afterSequencer]
  split
  · rw [opSeqStep_same (e := .dutyTime) (by simp [MayWrite]), afterTicks_dutyTime]
  · exact afterTicks_dutyTime p b i

/-- A cycle without reset keeps DutyTime or stores the operand of its WR_DUTY. -/
theorem blockCycle_dutyTime_cases (hr : i.rst = false) :
    (blockCycle p b i).1.dutyTime = b.dutyTime ∨
    (i.hValid = true ∧ decodeHost i.hCmd = .ok (.wrDuty (blockCycle p b i).1.dutyTime)) := by
  obtain h | ⟨hv, c, hc, h⟩ := blockCycle_cases p b i hr <;> rw [h]
  · exact .inl (afterSequencer_dutyTime p b i)
  · obtain ⟨-, -, e | ⟨v, rfl, -, e⟩ | ⟨-, -, e⟩ | ⟨-, -, e⟩ | ⟨-, -, e⟩⟩ :=
      applyOp_host_cases p c (afterSequencer p b i) (decodeHost_format hc) <;> rw [e]
    · exact .inl (afterSequencer_dutyTime p b i)
    · exact .inr ⟨hv, hc⟩
    · exact .inl (afterSequencer_dutyTime p b i)
    · exact .inl (afterSequencer_dutyTime p b i)
    · exact .inl (afterSequencer_dutyTime p b i)

/-- Without a reset and a WR_DUTY no run writes DutyTime. -/
theorem runBlock_dutyTime {is : List Inputs} (hr : NoReset is)
    (hw : ∀ k ∈ is, k.hValid = true → ∀ u, decodeHost k.hCmd ≠ .ok (.wrDuty u)) :
    (runBlock p b is).dutyTime = b.dutyTime := by
  induction is generalizing b with
  | nil => rfl
  | cons i is ih =>
    obtain ⟨hri, hr⟩ := List.forall_mem_cons.1 hr
    obtain ⟨hwi, hw⟩ := List.forall_mem_cons.1 hw
    obtain kept | ⟨hv, hc⟩ := blockCycle_dutyTime_cases (p := p) (b := b) hri
    · exact (ih hr hw).trans kept
    · exact absurd hc (hwi hv _)

/-! ## The line in RUN -/

theorem applyOp_host_outLine {c : Instr} (hc : c.format = .host) : (applyOp p c b).1.outLine = b.outLine := by
  refine applyOp_host_same (e := .outLine) hc ?_
  cases c with
  | msTick | pwmTick | seqStep => cases hc
  | rdStatus | rdDuty | rdMillis | rdPhase | boot | wrDuty | clrMillis => simp [MayWrite]

/-- In RUN the line after a PWM_TICK compares the phase and the duty time of the beginning of the cycle: the MS_TICK before
it writes neither, and no command writes the line. -/
theorem blockCycle_outLine_of_pwmTick (hm : b.seqState = .run) (hr : i.rst = false) (ht : i.pwmTick = true) :
    (blockCycle p b i).1.outLine = decide (b.phaseCounter.toNat < p.minOffset + b.dutyTime.toNat) := by
  have ticked : (afterTicks p b i).outLine = b.drivesHigh p := by
    simp only [afterTicks, ht, if_true]
    split
    · exact congrArg Block.outLine (opPwmTick_run (b := opMsTick b) p hm)
    · exact congrArg Block.outLine (opPwmTick_run p hm)
  have sequenced : (afterSequencer p b i).outLine = b.drivesHigh p := by
    rw [afterSequencer_of_not_arming p i (by simp [hm]), ticked]
  obtain h | ⟨-, c, hc, h⟩ := blockCycle_cases p b i hr <;> rw [h]
  · exact sequenced
  · exact (applyOp_host_outLine (decodeHost_format hc)).trans sequenced

end Sys2Proof.Machine
end

section
/-! SUPPORT. The reference host (20_memory.md R55, 70_reset_and_hazards.md R148) writes percentages only: what its tasks may
write is an invariant of the looping host, beside the bound of DutyTime. -/

namespace Sys2Proof.Machine

variable {p : Params} {b : Block}

/-- The scaled sample is a percentage of the full scale (R55). -/
theorem scaleSample_le {raw maxRaw : Nat} (h : raw ≤ maxRaw) : scaleSample raw maxRaw ≤ 100 :=
  Nat.div_le_of_le_mul (Nat.mul_le_mul_right 100 h)

/-- If the task presents a WR_DUTY, its operand is at most 100. -/
def HostTask.WritesPercentage (t : HostTask) : Prop :=
  ∀ w v, t.command = some w → decodeHost w = .ok (.wrDuty v) → v.toNat ≤ 100

theorem HostTask.writesPercentage_of_command {t : HostTask} {c : Instr} (ht : t.command = hostWord c)
    (hc : ∀ v, c = .wrDuty v → v.toNat ≤ 100) : t.WritesPercentage := by
  intro w v hw hd
  have decoded := decodeHost_hostWord (ht ▸ hw)
  exact hc v (Except.ok.inj (decoded.symm.trans hd))

theorem HostTask.delay_writesPercentage (n : Word32) : (HostTask.delay n).WritesPercentage :=
  writesPercentage_of_command (c := .clrMillis) rfl nofun

theorem HostTask.poll_writesPercentage (n : Word32) : (HostTask.poll n).WritesPercentage :=
  writesPercentage_of_command (c := .rdMillis) rfl nofun

theorem HostTask.waitRun_writesPercentage : HostTask.waitRun.WritesPercentage :=
  writesPercentage_of_command (c := .rdStatus) rfl nofun

theorem HostTask.boot_writesPercentage (t : BitVec 1) : (HostTask.issue (.boot t)).WritesPercentage :=
  writesPercentage_of_command (c := .boot t) rfl nofun

theorem referenceTurn_writesPercentages {maxRaw raw : Nat} (h : raw ≤ maxRaw) :
    ∀ t ∈ referenceTurn maxRaw raw, t.WritesPercentage := by
  have publishes : (HostTask.issue (.wrDuty (BitVec.ofNat 16 (scaleSample raw maxRaw)))).WritesPercentage :=
    HostTask.writesPercentage_of_command (c := .wrDuty _) rfl fun v hv => by
      cases hv
      rw [BitVec.toNat_ofNat]
      exact (Nat.mod_le _ _).trans (scaleSample_le h)
  exact List.forall_mem_cons.2 ⟨HostTask.delay_writesPercentage _, List.forall_mem_singleton.2 publishes⟩

/-- A task that is not over is as before, or is the polling of a DELAY. -/
theorem HostTask.after_cases {t u : HostTask} {r : Option Response} (h : t.after r = some u) :
    u = t ∨ ∃ n, u = .poll n := by
  cases t with
  | line => cases h
  | delay n =>
    obtain _ | ⟨_ | _ | _, d⟩ := r <;> cases h
    exact .inr ⟨n, rfl⟩
  | poll | waitRun =>
    obtain _ | x := r
    · exact .inl (Option.some.inj h).symm
    · exact .inl (Option.some.inj (Option.ite_none_left_eq_some.1 h).2).symm

/-- The invariant of the block and a host: DutyTime is a percentage, and so is all that the host's tasks will write. -/
def Percentages (b : Block) (ts : List HostTask) : Prop :=
  b.dutyTime.toNat ≤ 100 ∧ ∀ t ∈ ts, t.WritesPercentage

/-- A reset sets DutyTime to 0, and a cycle without one keeps it or stores what is written. -/
theorem blockCycle_dutyTime_le {i : Inputs} (hb : b.dutyTime.toNat ≤ 100)
    (hw : i.hValid = true → ∀ v, decodeHost i.hCmd = .ok (.wrDuty v) → v.toNat ≤ 100) :
    (blockCycle p b i).1.dutyTime.toNat ≤ 100 := by
  cases hr : i.rst with
  | true => simp [blockCycle, hr, Block.reset]
  | false =>
    obtain kept | ⟨hv, hc⟩ := blockCycle_dutyTime_cases (p := p) (b := b) hr
    · rwa [kept]
    · exact hw hv _ hc

theorem hostStep_keeps_percentages {ts : List HostTask} (h : Percentages b ts) (ticks : Bool × Bool) :
    Percentages (hostStep p ticks (b, ts)).1 (hostStep p ticks (b, ts)).2 := by
  obtain ⟨hb, hts⟩ := h
  cases ts with
  | nil => exact ⟨blockCycle_dutyTime_le hb nofun, nofun⟩
  | cons t ts =>
    obtain ⟨ht, hts⟩ := List.forall_mem_cons.1 hts
    refine ⟨blockCycle_dutyTime_le hb fun hv v hd => ?_, fun u hu => ?_⟩
    · obtain ⟨w, hw⟩ := Option.isSome_iff_exists.1 hv
      simp only [hostInputs, hw, Option.getD_some] at hd
      exact ht w v hw hd
    · obtain left | later := List.mem_append.1 hu
      · obtain rfl | ⟨n, rfl⟩ := HostTask.after_cases (Option.mem_toList.1 left)
        · exact ht
        · exact HostTask.poll_writesPercentage n
      · exact hts u later

theorem runLoop_keeps_percentages {body : Nat → List HostTask} (hbody : ∀ k, ∀ t ∈ body k, t.WritesPercentage)
    (ticks : List (Bool × Bool)) {c : Block × LoopHost} (h : Percentages c.1 c.2.tasks) :
    (runLoop p body ticks c).1.dutyTime.toNat ≤ 100 := by
  induction ticks generalizing c with
  | nil => exact h.1
  | cons t ts ih =>
    have ready : Percentages c.1 (c.2.ready body).tasks := by
      unfold LoopHost.ready
      split
      · exact ⟨h.1, hbody _⟩
      · exact h
    exact ih (hostStep_keeps_percentages ready t)

/-- The reset step of the reference host establishes the invariant, whatever the block was before. -/
theorem referenceStart_percentages (timebaseOk : Bool) (body : Nat → List HostTask) (ticks : Bool × Bool) (b : Block) :
    Percentages (loopStep p body ticks (b, referenceStart timebaseOk)).1
      (loopStep p body ticks (b, referenceStart timebaseOk)).2.tasks := by
  have boots : (if timebaseOk then HostTask.bootOk else HostTask.bootFail).WritesPercentage := by
    cases timebaseOk
    · exact HostTask.boot_writesPercentage 0#1
    · exact HostTask.boot_writesPercentage 1#1
  exact ⟨Nat.zero_le 100, List.forall_mem_cons.2 ⟨boots, List.forall_mem_singleton.2 HostTask.waitRun_writesPercentage⟩⟩

end Sys2Proof.Machine
end

section
/-! The statements of 20_memory.md. -/

open Sys2Proof Sys2Proof.Machine

/-- Settles O12: the tick of the WR_DUTY's own step compares with the duty time of the beginning of that step, and the steps
between leave the stored one to the later tick. -/
theorem dutyWriteIsSeenByTheNextTick : Obligations.DutyWriteIsSeenByTheNextTick := by
  intro p b i j v between hm hr hv hc hrs hws hrj htj c d
  have stored : c.dutyTime = v := by
    change (blockCycle p b i).1.dutyTime = v
    rw [blockCycle_of_command hr hv hc, applyOp_wrDuty_of_not_halted v (afterSequencer_ne_halted hm)]
  have later : d.dutyTime = v := (runBlock_dutyTime hrs hws).trans stored
  exact ⟨fun hrun ht => blockCycle_outLine_of_pwmTick hrun hr ht, stored,
    fun hrun => later ▸ blockCycle_outLine_of_pwmTick hrun hrj htj⟩

/-- Settles O13: the read is the last operation of its cycle, and it only reads. -/
theorem readSeesItsOwnStep : Obligations.ReadSeesItsOwnStep := by
  intro s t c r hcr hr hv hw hst
  have cycle := blockCycle_of_command (p := Config.params) (b := s.block) hr hv (decodeHost_hostWord hw)
  have reads (b : Block) : applyOp Config.params c b = (b, some ⟨.okay, b.readReg r⟩) := by
    simp only [List.mem_cons, Prod.mk.injEq, List.not_mem_nil, or_false] at hcr
    obtain ⟨rfl, rfl⟩ | ⟨rfl, rfl⟩ | ⟨rfl, rfl⟩ | ⟨rfl, rfl⟩ := hcr <;> rfl
  rw [step_eq_blockCycle, cycle, reads] at hst
  cases hst
  exact ⟨rfl, rfl⟩

/-- Settles O46: the reset step establishes the bound with the invariant of the tasks left, and every later step keeps both. -/
theorem referenceHostWritesPercentages : Obligations.ReferenceHostWritesPercentages := by
  intro p b timebaseOk maxRaw raw ticks hne hraw
  obtain ⟨t, ts, rfl⟩ := List.exists_cons_of_ne_nil hne
  exact runLoop_keeps_percentages (fun k => referenceTurn_writesPercentages (hraw k)) ts
    (referenceStart_percentages timebaseOk _ t b)

end

section
/-! SUPPORT. Format H as a code (30_encoding.md R62 to R64, R66): a word that matches a row is the word of the row's
operation, so decoding and encoding are inverse, and the defined words as numbers. -/

namespace Sys2Proof.Machine

/-! ## Rows and words -/

theorem hostWord_eq_some_iff {i : Instr} {w : CmdWord} : hostWord i = some w ↔ encode i = .host w := by
  unfold hostWord
  cases encode i <;> simp

/-- A word of the WR_DUTY row is the row's number with its DATA field added. -/
theorem hostWord_wrDuty_data {w : CmdWord} (h : w.toNat / 65536 = 9) : hostWord (.wrDuty w.data) = some w :=
  congrArg some (BitVec.eq_of_toNat_eq (by
    rw [wrDutyWord_toNat, Laws.data_toNat]
    omega))

/-- A word of the BOOT row is one of the two words that the row's mask leaves. -/
theorem hostWord_boot_data {w : CmdWord} (h : w.toNat / 2 = 0x40000) :
    hostWord (.boot (w.data.extractLsb' 0 1)) = some w := by
  obtain e | e : w.toNat = 0x80000 ∨ w.toNat = 0x80001 := by omega
  · obtain rfl : w = 0x80000#20 := BitVec.eq_of_toNat_eq e
    rfl
  · obtain rfl : w = 0x80001#20 := BitVec.eq_of_toNat_eq e
    rfl

/-- Encode after decode, row by row (R66). -/
theorem hostWord_of_row {r : HostRow} {w : CmdWord} (hr : r ∈ hostRows) (h : r.accepts w = true) :
    hostWord (r.operation w.data) = some w := by
  simp only [hostRows, List.mem_cons, List.not_mem_nil, or_false] at hr
  have whole {c : CmdWord} {i : Instr} (hc : hostWord i = some c) (h : (w &&& 0xFFFFF#20 == c) = true) :
      hostWord i = some w := (Laws.accepts_whole w c).1 h ▸ hc
  obtain rfl | rfl | rfl | rfl | rfl | rfl | rfl := hr
  · exact whole rfl h
  · exact whole rfl h
  · exact whole rfl h
  · exact whole rfl h
  · exact hostWord_boot_data ((Laws.accepts_boot w).1 h)
  · exact hostWord_wrDuty_data ((Laws.accepts_duty w).1 h)
  · exact whole rfl h

/-- Decoding finds a row the word matches (R62). -/
theorem row_of_decodeHost {w : CmdWord} {i : Instr} (h : decodeHost w = .ok i) :
    ∃ r ∈ hostRows, r.accepts w = true ∧ r.operation w.data = i := by
  unfold decodeHost at h
  split at h
  · next r hr =>
    have accepts : r.accepts w = true := List.find?_some (p := fun r : HostRow => r.accepts w) hr
    exact ⟨r, List.mem_of_find?_eq_some hr, accepts, Except.ok.inj h⟩
  · cases h

/-- A host word decodes to an operation exactly when it is that operation's word. -/
theorem decodeHost_eq_ok_iff {w : CmdWord} {i : Instr} : decodeHost w = .ok i ↔ hostWord i = some w := by
  refine ⟨fun h => ?_, decodeHost_hostWord⟩
  obtain ⟨r, hr, ha, rfl⟩ := row_of_decodeHost h
  exact hostWord_of_row hr ha

/-- The order of the rows does not matter: whichever matches, its operation is the one whose word this is. -/
theorem decodeHost_eq_ok_iff_row {w : CmdWord} {i : Instr} :
    decodeHost w = .ok i ↔ ∃ r ∈ hostRows, r.accepts w = true ∧ r.operation w.data = i := by
  refine ⟨row_of_decodeHost, ?_⟩
  rintro ⟨r, hr, ha, rfl⟩
  exact decodeHost_hostWord (hostWord_of_row hr ha)

theorem decode_encode (i : Instr) : decode (encode i) = .ok [i] := by
  have host {w : CmdWord} (h : hostWord i = some w) : decode (encode i) = .ok [i] := by
    rw [hostWord_eq_some_iff.1 h, decode, decodeHost_hostWord h]
    rfl
  cases i with
  | msTick | pwmTick | seqStep => rfl
  | rdStatus | rdDuty | rdMillis | rdPhase | boot | wrDuty | clrMillis => exact host rfl

/-! ## The defined words as numbers (R63, R64) -/

/-- The numbers of the words that match a row: the four reads, the two words of BOOT, and those of WR_DUTY, which the word of
CLR_MILLIS follows. -/
def definedNumbers : Finset ℕ :=
  {0x00000, 0x10000, 0x20000, 0x30000} ∪ (Finset.Ico 0x80000 0x80002 ∪ Finset.Ico 0x90000 0xA0001)

theorem mem_definedNumbers {n : ℕ} : n ∈ definedNumbers ↔
    (n = 0x00000 ∨ n = 0x10000 ∨ n = 0x20000 ∨ n = 0x30000) ∨
      (0x80000 ≤ n ∧ n < 0x80002) ∨ (0x90000 ≤ n ∧ n < 0xA0001) := by
  simp only [definedNumbers, Finset.mem_union, Finset.mem_insert, Finset.mem_singleton, Finset.mem_Ico]

theorem card_definedNumbers : definedNumbers.card = 65543 := by
  have commands : Disjoint (Finset.Ico 0x80000 0x80002) (Finset.Ico 0x90000 0xA0001) :=
    Finset.disjoint_left.2 fun n => by simp only [Finset.mem_Ico]; omega
  have reads : Disjoint {0x00000, 0x10000, 0x20000, 0x30000}
      (Finset.Ico 0x80000 0x80002 ∪ Finset.Ico 0x90000 0xA0001) :=
    Finset.disjoint_left.2 fun n => by
      simp only [Finset.mem_insert, Finset.mem_singleton, Finset.mem_union, Finset.mem_Ico]; omega
  rw [definedNumbers, Finset.card_union_of_disjoint reads, Finset.card_union_of_disjoint commands, Nat.card_Ico,
    Nat.card_Ico]
  rfl

theorem exists_row_accepts_iff (w : CmdWord) :
    (∃ r ∈ hostRows, r.accepts w = true) ↔ w.toNat ∈ definedNumbers := by
  have whole (c : CmdWord) : (w &&& 0xFFFFF#20 == c) = true ↔ w.toNat = c.toNat :=
    (Laws.accepts_whole w c).trans BitVec.toNat_inj.symm
  simp only [hostRows, List.exists_mem_cons_iff, List.not_mem_nil, false_and, exists_false, or_false, HostRow.accepts, whole,
    Laws.accepts_boot, Laws.accepts_duty, BitVec.toNat_ofNat, mem_definedNumbers]
  omega

theorem exists_decodeHost_iff (w : CmdWord) : (∃ i, decodeHost w = .ok i) ↔ w.toNat ∈ definedNumbers := by
  rw [← exists_row_accepts_iff]
  constructor
  · rintro ⟨i, h⟩
    obtain ⟨r, hr, ha, -⟩ := row_of_decodeHost h
    exact ⟨r, hr, ha⟩
  · rintro ⟨r, hr, ha⟩
    exact ⟨_, decodeHost_eq_ok_iff_row.2 ⟨r, hr, ha, rfl⟩⟩

theorem isOk_decodeHost_iff (w : CmdWord) : (decodeHost w).isOk = true ↔ w.toNat ∈ definedNumbers := by
  rw [← exists_decodeHost_iff]
  cases decodeHost w <;> simp [Except.isOk, Except.toBool]

theorem exists_decodeHost_error_iff (w : CmdWord) : (∃ k, decodeHost w = .error k) ↔ w.toNat ∉ definedNumbers := by
  rw [← exists_decodeHost_iff]
  cases decodeHost w <;> simp

/-- The defined words and their numbers are the same set. -/
theorem image_toNat_defined :
    (Finset.univ.filter fun w : CmdWord => (decodeHost w).isOk = true).image BitVec.toNat = definedNumbers := by
  ext n
  simp only [Finset.mem_image, Finset.mem_filter, Finset.mem_univ, true_and, isOk_decodeHost_iff]
  constructor
  · rintro ⟨w, h, rfl⟩
    exact h
  · intro h
    have fits : n < 2 ^ 20 := by
      rw [mem_definedNumbers] at h
      omega
    have number : (BitVec.ofNat 20 n).toNat = n := Nat.mod_eq_of_lt fits
    exact ⟨BitVec.ofNat 20 n, number.symm ▸ h, number⟩

end Sys2Proof.Machine
end

section
/-! SUPPORT. The host in WAIT_RUN (30_encoding.md R69): the SEQ field of STATUS, one step, and RUN without a host's reset. -/

namespace Sys2Proof.Machine

variable {p : Params} {b : Block}

/-- SEQ is the low field of STATUS (10_state.md R31). -/
theorem status_seq (b : Block) : b.status.extractLsb' 0 2 = b.seqState.code := by
  have low {m n : Nat} (x : BitVec m) {y : BitVec n} (h : 2 ≤ n) : (x ++ y).extractLsb' 0 2 = y.extractLsb' 0 2 :=
    BitVec.extractLsb'_append_eq_of_add_le (by omega)
  rw [Block.status, low _ (by decide), low _ (by decide), low _ (by decide), low _ (by decide)]
  exact BitVec.extractLsb'_append_eq_right

/-- WAIT_RUN reads STATUS last in its cycle, so the mode it sees is the one the step leaves. -/
theorem hostStep_waitRun (p : Params) (b : Block) (t : Bool × Bool) :
    hostStep p t (b, [.waitRun]) = (afterSequencer p b (hostInputs t [.waitRun]),
      if (afterSequencer p b (hostInputs t [.waitRun])).seqState = .run then [] else [.waitRun]) := by
  have cycle := blockCycle_of_command (p := p) (b := b) (i := hostInputs t [.waitRun]) rfl rfl
    (decodeHost_hostWord (c := .rdStatus) rfl)
  generalize afterSequencer p b (hostInputs t [.waitRun]) = c at cycle ⊢
  have answered : hostStep p t (b, [.waitRun]) = (c, (HostTask.waitRun.after (some ⟨.okay, c.status⟩)).toList) := by
    rw [hostStep, cycle]
    exact congrArg (Prod.mk c) (List.append_nil _)
  rw [answered, HostTask.after, status_seq]
  simp only [SeqState.code_injective.eq_iff]
  split <;> rfl

/-- A host with nothing left to do presents no reset, so the block stays in RUN. -/
theorem runHost_nil_of_run (ticks : List (Bool × Bool)) (hm : b.seqState = .run) :
    (runHost p ticks (b, [])).2 = [] ∧ (runHost p ticks (b, [])).1.seqState = .run := by
  induction ticks generalizing b with
  | nil => exact ⟨rfl, hm⟩
  | cons t ts ih =>
    have stays : (blockCycle p b (hostInputs t [])).1.seqState = .run :=
      (blockCycle_seqState_of_run_or_halted rfl (.inl hm)).trans hm
    exact ih stays

end Sys2Proof.Machine
end

section
/-! The statements of 30_encoding.md. -/

open Sys2Proof Sys2Proof.Machine

/-- Settles O14: the word of a host operation decodes to it, and a word that decodes is the word of what it decodes to. -/
theorem encodeAndDecodeAreInverse : Obligations.EncodeAndDecodeAreInverse := by
  refine ⟨decode_encode, fun w i h => hostWord_eq_some_iff.1 (decodeHost_eq_ok_iff.1 h), rfl, rfl, rfl, rfl, rfl,
    fun t => ?_, fun v => ?_⟩
  · revert t
    decide
  · have number : (0x90000#20 + v.setWidth 20) = BitVec.ofNat 20 (0x90000 + v.toNat) := by
      rw [← wrDutyWord_toNat, BitVec.ofNat_toNat, BitVec.setWidth_eq]
    exact congrArg some number

/-- Settles O15: the operation of any row that matches is the one whose word this is. -/
theorem decodingFollowsAnyMatchingRow : Obligations.DecodingFollowsAnyMatchingRow := by
  intro w i
  simp only [decodeHost_eq_ok_iff_row, HostRow.accepts, beq_iff_eq]

/-- Settles O16: a word without decoding has a number outside the seven rows, and the refusal writes the response only. -/
theorem reservedWordsAreRefused : Obligations.ReservedWordsAreRefused := by
  refine ⟨fun w => ?_, fun w k s h => ?_⟩
  · rw [exists_decodeHost_error_iff, mem_definedNumbers]
    omega
  · rw [hostCommand, h]
    rfl

/-- Settles O17: the defined words are as many as their numbers. -/
theorem definedHostWordsNumber65543 : Obligations.DefinedHostWordsNumber65543 := by
  unfold Obligations.DefinedHostWordsNumber65543
  rw [← Finset.card_image_of_injective _ BitVec.toNat_injective, image_toNat_defined, card_definedNumbers]

/-- Settles O18: the host words are the words of their operations, or match no row. -/
theorem writtenOutWordsDecode : Obligations.WrittenOutWordsDecode :=
  ⟨decodeHost_hostWord rfl, decodeHost_hostWord rfl, decodeHost_hostWord rfl, rfl, rfl, Laws.decodeSelector_code .arming⟩

/-- Settles O19: WAIT_RUN ends in the first step that leaves the block in RUN, where it then stays. -/
theorem waitRunEndsInRun : Obligations.WaitRunEndsInRun := by
  intro p b ticks
  induction ticks generalizing b with
  | nil => exact ⟨nofun, fun h => absurd rfl h.1⟩
  | cons t ts ih =>
    rw [runHost, hostStep_waitRun]
    generalize afterSequencer p b (hostInputs t [.waitRun]) = c
    split
    · next hrun =>
      obtain ⟨done, stays⟩ := runHost_nil_of_run (p := p) ts hrun
      exact ⟨fun _ => ⟨nofun, stays⟩, fun _ => done⟩
    · next hrun =>
      have later : (runHost p ts (c, [.waitRun])).1.seqState = .run → ts ≠ [] := by
        rintro h rfl
        exact hrun h
      exact (ih c).trans ⟨fun ⟨_, h⟩ => ⟨nofun, h⟩, fun ⟨_, h⟩ => ⟨later h, h⟩⟩

end

section
/-! SUPPORT. ElapsedMillis over a cycle and under a host in DELAY (40_tick_counter.md R75 to R82, 30_encoding.md R68): what
CLR_MILLIS and the ticks leave in it, and one step of each half of DELAY. -/

namespace Sys2Proof.Machine

variable {p : Params} {b : Block} {i : Inputs}

/-! ## CLR_MILLIS (R79, R80) -/

theorem ne_arming_of_idle_or_run (hm : b.seqState = .idle ∨ b.seqState = .run) : b.seqState ≠ .arming := by
  obtain h | h := hm <;> simp [h]

theorem applyOp_clrMillis_of_idle_or_run (hm : b.seqState = .idle ∨ b.seqState = .run) :
    applyOp p .clrMillis b = (b.clearMillis, some (okay 0#32)) := by
  obtain h | h := hm <;> simp [applyOp, opClrMillis, h]

theorem applyOp_clrMillis_of_arming_or_halted (hm : b.seqState = .arming ∨ b.seqState = .halted) :
    applyOp p .clrMillis b = (b, some refusedByMode) := by
  obtain h | h := hm <;> simp [applyOp, opClrMillis, h]

/-- A command writes ElapsedMillis only to clear it. -/
theorem applyOp_host_elapsedMillis {c : Instr} (hc : c.format = .host) :
    (applyOp p c b).1.elapsedMillis = b.elapsedMillis ∨ (applyOp p c b).1.elapsedMillis = 0 := by
  obtain ⟨-, -, h | ⟨v, -, -, h⟩ | ⟨-, -, h⟩ | ⟨-, -, h⟩ | ⟨-, -, h⟩⟩ := applyOp_host_cases p c b hc <;> rw [h]
  · exact .inl rfl
  · exact .inl rfl
  · exact .inr rfl
  · exact .inl rfl
  · exact .inl rfl

/-! ## ElapsedMillis after the ticks and the sequencer's step (R75, R81) -/

theorem afterTicks_elapsedMillis_toNat (p : Params) (b : Block) (i : Inputs) :
    (afterTicks p b i).elapsedMillis.toNat =
      min (b.elapsedMillis.toNat + if i.msTick then 1 else 0) (2 ^ 32 - 1) := by
  have ticked : (afterTicks p b i).elapsedMillis = (if i.msTick then b.incrementMillis else b).elapsedMillis := by
    dsimp only [afterTicks, opMsTick]
    split
    · exact opPwmTick_elapsedMillis p _
    · rfl
  rw [ticked]
  split
  · exact b.incrementMillis_toNat
  · exact (Nat.min_eq_left (Nat.le_pred_of_lt b.elapsedMillis.isLt)).symm

@[simp] theorem afterTicks_seqPhase (p : Params) (b : Block) (i : Inputs) : (afterTicks p b i).seqPhase = b.seqPhase := by
  dsimp only [afterTicks, opMsTick]
  split <;> split <;> simp

@[simp] theorem afterTicks_iterCount (p : Params) (b : Block) (i : Inputs) :
    (afterTicks p b i).iterCount = b.iterCount := by
  dsimp only [afterTicks, opMsTick]
  split <;> split <;> simp

/-- The drive case comes after the tick of its cycle and clears what it counted. -/
theorem afterSequencer_elapsedMillis_of_drive (hm : b.seqState = .arming) (hd : b.seqPhase = .drive)
    (hi : b.iterCount.toNat ≠ p.armIterations) : (afterSequencer p b i).elapsedMillis = 0 := by
  have mode : (afterTicks p b i).seqState = .arming := by rw [afterTicks_seqState, hm]
  have phase : (afterTicks p b i).seqPhase = .drive := by rw [afterTicks_seqPhase, hd]
  have sequencer : afterSequencer p b i = opSeqStep p (afterTicks p b i) := if_pos mode
  rw [sequencer]
  obtain ⟨h, -⟩ | ⟨-, -, h, -⟩ | ⟨-, -, -, h⟩ | ⟨-, h, -⟩ | ⟨-, h, -⟩ := opSeqStep_cases p (afterTicks p b i)
  · exact absurd mode h
  · exact absurd (afterTicks_iterCount p b i ▸ h) hi
  · rw [h]; rfl
  · cases phase.symm.trans h
  · cases phase.symm.trans h

/-! ## The host in DELAY (R68, R82) -/

/-- A task that presents an operation sees its response, at the end of the cycle. -/
theorem hostStep_of_command {t : HostTask} {c : Instr} {w : CmdWord} (hr : t.resets = false) (ht : t.command = some w)
    (hw : hostWord c = some w) (ticks : Bool × Bool) :
    hostStep p ticks (b, [t]) =
      ((applyOp p c (afterSequencer p b (hostInputs ticks [t]))).1,
        (t.after (applyOp p c (afterSequencer p b (hostInputs ticks [t]))).2).toList) := by
  have cycle : blockCycle p b (hostInputs ticks [t]) = applyOp p c (afterSequencer p b (hostInputs ticks [t])) :=
    blockCycle_of_command hr (by simp [hostInputs, ht]) (by simp [hostInputs, ht, decodeHost_hostWord hw])
  rw [hostStep, cycle]
  exact congrArg (Prod.mk _) (List.append_nil _)

/-- The first step of DELAY, where CLR_MILLIS is performed, ends with ElapsedMillis cleared and goes on to polling. -/
theorem hostStep_delay (n : Word32) (t : Bool × Bool) (hm : b.seqState = .idle ∨ b.seqState = .run) :
    hostStep p t (b, [.delay n]) = ((afterTicks p b (hostInputs t [.delay n])).clearMillis, [.poll n]) := by
  have idle_or_run : (afterTicks p b (hostInputs t [.delay n])).seqState = .idle ∨
      (afterTicks p b (hostInputs t [.delay n])).seqState = .run := by rwa [afterTicks_seqState]
  rw [hostStep_of_command (c := .clrMillis) rfl rfl rfl,
    afterSequencer_of_not_arming p _ (ne_arming_of_idle_or_run hm),
    applyOp_clrMillis_of_idle_or_run idle_or_run]
  rfl

/-- A later step of DELAY tests the count its own tick has reached. -/
theorem hostStep_poll (n : Word32) (t : Bool × Bool) (hm : b.seqState ≠ .arming) :
    hostStep p t (b, [.poll n]) = (afterTicks p b (hostInputs t [.poll n]),
      if n.toNat ≤ (afterTicks p b (hostInputs t [.poll n])).elapsedMillis.toNat then [] else [.poll n]) := by
  rw [hostStep_of_command (c := .rdMillis) rfl rfl rfl, afterSequencer_of_not_arming p _ hm]
  generalize afterTicks p b (hostInputs t [.poll n]) = c
  have tested : HostTask.after (.poll n) (some ⟨.okay, c.elapsedMillis⟩) =
    if n.toNat ≤ c.elapsedMillis.toNat then none else some (.poll n) := rfl
  refine congrArg (Prod.mk c) ((congrArg Option.toList tested).trans ?_)
  split <;> rfl

/-- A host with nothing left to do stays so. -/
theorem runHost_nil_tasks (p : Params) (ticks : List (Bool × Bool)) (b : Block) : (runHost p ticks (b, [])).2 = [] := by
  induction ticks generalizing b with
  | nil => rfl
  | cons t ts ih => exact ih _

/-- Polling is over once the ticks, added to the count it began with, have reached `n`. Saturation does not hide them: a count
that is still below `n` is below its maximum. -/
theorem runHost_poll_done_iff (n : Word32) (ticks : List (Bool × Bool)) (hm : b.seqState ≠ .arming) :
    (runHost p ticks (b, [.poll n])).2 = [] ↔
      ticks ≠ [] ∧ n.toNat ≤ b.elapsedMillis.toNat + ticks.countP (·.1) := by
  induction ticks generalizing b with
  | nil => exact ⟨nofun, fun h => absurd rfl h.1⟩
  | cons t ts ih =>
    have counted : (afterTicks p b (hostInputs t [.poll n])).elapsedMillis.toNat =
      min (b.elapsedMillis.toNat + if t.1 then 1 else 0) (2 ^ 32 - 1) := afterTicks_elapsedMillis_toNat ..
    have mode : (afterTicks p b (hostInputs t [.poll n])).seqState ≠ .arming := by rwa [afterTicks_seqState]
    rw [runHost, hostStep_poll n t hm, List.countP_cons]
    generalize afterTicks p b (hostInputs t [.poll n]) = c at counted mode ⊢
    have hn := n.isLt
    split
    · next reached =>
      exact ⟨fun _ => ⟨nofun, by omega⟩, fun _ => runHost_nil_tasks p ts c⟩
    · next below =>
      have unsaturated : c.elapsedMillis.toNat = b.elapsedMillis.toNat + if t.1 then 1 else 0 := by omega
      rw [ih mode, unsaturated, Nat.add_assoc, Nat.add_comm (List.countP ..)]
      refine and_congr_left fun h => iff_of_true ?_ (List.cons_ne_nil t ts)
      rintro rfl
      exact below (unsaturated ▸ h)

end Sys2Proof.Machine
end

section
/-! The statements of 40_tick_counter.md. -/

open Sys2Proof Sys2Proof.Machine

/-- Settles O23: CLR_MILLIS and the drive case come after the tick, and a command after the drive case can only clear again. -/
theorem clearWinsOverTheTick : Obligations.ClearWinsOverTheTick := by
  intro s t hst hr _ hclear
  rw [block_of_step hst]
  obtain ⟨hv, hw, hm⟩ | ⟨hm, hd, hi⟩ := hclear
  · have mode : (afterSequencer Config.params s.block s.nextInputs).seqState = s.block.seqState :=
      afterSequencer_seqState_of_not_arming _ _ (ne_arming_of_idle_or_run hm)
    rw [blockCycle_of_command hr hv (decodeHost_hostWord (c := .clrMillis) (hw ▸ rfl)),
      applyOp_clrMillis_of_idle_or_run (mode ▸ hm)]
    rfl
  · have cleared := afterSequencer_elapsedMillis_of_drive (i := s.nextInputs) hm hd hi
    obtain h | ⟨-, c, hc, h⟩ := blockCycle_cases Config.params s.block s.nextInputs hr <;> rw [h]
    · exact cleared
    · obtain kept | cleared_again := applyOp_host_elapsedMillis (decodeHost_format hc)
      · exact kept.trans cleared
      · exact cleared_again

/-- Settles O24: the clearing step leaves the count 0 to the polling that follows. -/
theorem delayWaitsForItsTicks : Obligations.DelayWaitsForItsTicks := by
  intro p b n first later hm
  have mode : (afterTicks p b (hostInputs first [.delay n])).clearMillis.seqState ≠ .arming := by
    rw [Block.clearMillis_seqState, afterTicks_seqState]
    exact ne_arming_of_idle_or_run hm
  rw [runHost, hostStep_delay n first hm, runHost_poll_done_iff n later mode, Block.clearMillis_elapsedMillis]
  exact iff_of_eq (congrArg (later ≠ [] ∧ n.toNat ≤ ·) (Nat.zero_add _))

/-- Settles O20: the saturating increment, on the block alone. -/
theorem msTickCountsAndSaturates : Obligations.MsTickCountsAndSaturates :=
  ⟨by decide, fun s => ⟨_, exec_eq .msTick s, s.block.incrementMillis_toNat, rfl⟩⟩

/-- Settles O21: the two outcomes of CLR_MILLIS, under its word. -/
theorem clrMillisClearsOrIsRefused : Obligations.ClrMillisClearsOrIsRefused := by
  refine ⟨decodeHost_hostWord rfl, fun s => ⟨fun hm => ?_, fun hm => ?_⟩⟩
  · rw [exec_eq, applyOp_clrMillis_of_idle_or_run hm]
    rfl
  · rw [exec_eq, applyOp_clrMillis_of_arming_or_halted hm]
    rfl

/-- Settles O22: a read answers with its register, where a 16-bit element keeps its value. -/
theorem plainReadsReturnTheirElement : Obligations.PlainReadsReturnTheirElement :=
  ⟨decodeHost_hostWord rfl, decodeHost_hostWord rfl, decodeHost_hostWord rfl, fun s =>
    ⟨s.block.readReg .millis, s.block.readReg .duty, s.block.readReg .phase,
      exec_eq .rdMillis s, rfl,
      exec_eq .rdDuty s, BitVec.toNat_setWidth_of_le (by decide),
      exec_eq .rdPhase s, BitVec.toNat_setWidth_of_le (by decide)⟩⟩

end

section
/-! SUPPORT. The PWM wave in RUN (41_pwm_generator.md R85 to R93): one tick on the block, one cycle, and the ticks of
consecutive runs added up. -/

namespace Sys2Proof.Machine

variable {p : Params} {b c d : Block} {i : Inputs}

/-! ## One PWM_TICK (R85, R86, R89) -/

theorem exec_pwmTick_of_run {s : State} (hm : s.block.seqState = .run) :
    exec .pwmTick s = .next { s with
      block := { s.block with
        outLine := s.block.drivesHigh Config.params, phaseCounter := s.block.nextPhase Config.params }
      response := none } := by
  rw [exec_eq, applyOp, opPwmTick_run _ hm]

theorem exec_pwmTick_of_not_run {s : State} (hm : s.block.seqState ≠ .run) :
    exec .pwmTick s = .next { s with response := none } := by
  rw [exec_eq, applyOp, opPwmTick_other _ hm]

/-- The wrap at WAVE_PERIOD is the addition modulo WAVE_PERIOD. -/
theorem Block.nextPhase_toNat_eq_mod (hp : p.wf) (hb : b.phaseCounter.toNat < p.wavePeriod) :
    (b.nextPhase p).toNat = (b.phaseCounter.toNat + 1) % p.wavePeriod := by
  rw [Block.nextPhase_toNat hp]
  split
  · next last =>
    have wraps : b.phaseCounter.toNat + 1 = p.wavePeriod := by omega
    rw [wraps, Nat.mod_self]
  · next more => exact (Nat.mod_eq_of_lt (Nat.lt_of_not_le more)).symm

/-! ## WR_DUTY (R93) -/

theorem applyOp_wrDuty_of_halted (v : Word16) (hm : b.seqState = .halted) :
    applyOp p (.wrDuty v) b = (b, some refusedByMode) := by
  simp [applyOp, opWrDuty, hm]

/-! ## One cycle in RUN -/

theorem applyOp_host_phaseCounter {c : Instr} (hc : c.format = .host) :
    (applyOp p c b).1.phaseCounter = b.phaseCounter := by
  refine applyOp_host_same (e := .phaseCounter) hc ?_
  cases c with
  | msTick | pwmTick | seqStep => cases hc
  | rdStatus | rdDuty | rdMillis | rdPhase | boot | wrDuty | clrMillis => simp [MayWrite]

/-- In RUN the phase and the line of a cycle are those its ticks leave: SEQ_STEP is not selected, and no command writes them. -/
theorem blockCycle_wave_of_run (hm : b.seqState = .run) (hr : i.rst = false) :
    (blockCycle p b i).1.phaseCounter = (afterTicks p b i).phaseCounter ∧
    (blockCycle p b i).1.outLine = (afterTicks p b i).outLine := by
  rw [← afterSequencer_of_not_arming p i (by simp [hm])]
  obtain h | ⟨-, c, hc, h⟩ := blockCycle_cases p b i hr <;> rw [h]
  · exact ⟨rfl, rfl⟩
  · exact ⟨applyOp_host_phaseCounter (decodeHost_format hc), applyOp_host_outLine (decodeHost_format hc)⟩

theorem afterTicks_phaseCounter_of_pwmTick (hm : b.seqState = .run) (ht : i.pwmTick = true) :
    (afterTicks p b i).phaseCounter = b.nextPhase p := by
  simp only [afterTicks, ht, if_true]
  split
  · exact congrArg Block.phaseCounter (opPwmTick_run (b := opMsTick b) p hm)
  · exact congrArg Block.phaseCounter (opPwmTick_run p hm)

theorem afterTicks_wave_of_no_pwmTick (ht : i.pwmTick = false) :
    (afterTicks p b i).phaseCounter = b.phaseCounter ∧ (afterTicks p b i).outLine = b.outLine := by
  simp only [afterTicks, ht, Bool.false_eq_true, if_false]
  split <;> exact ⟨rfl, rfl⟩

/-! ## The wave (R90, R91) -/

/-- The block `c` is in RUN with the DutyTime of `b`, and its phase and line are those of `b` after `k` fast ticks. -/
structure Block.WaveAfter (p : Params) (b : Block) (k : Nat) (c : Block) : Prop where
  run : c.seqState = .run
  duty : c.dutyTime = b.dutyTime
  phase : c.phaseCounter.toNat = (b.phaseCounter.toNat + k) % p.wavePeriod
  /-- Only a tick drives the line. -/
  lineKept : k = 0 → c.outLine = b.outLine
  /-- The last tick found the phase that the `k - 1` ticks before it left. -/
  lineDriven : 0 < k → c.outLine = decide
    ((b.phaseCounter.toNat + (k - 1)) % p.wavePeriod < min (p.minOffset + b.dutyTime.toNat) p.wavePeriod)

theorem Block.WaveAfter.refl (hm : b.seqState = .run) (hb : b.phaseCounter.toNat < p.wavePeriod) : b.WaveAfter p 0 b where
  run := hm
  duty := rfl
  phase := (Nat.mod_eq_of_lt hb).symm
  lineKept _ := rfl
  lineDriven := nofun

/-- The ticks of consecutive runs add up. -/
theorem Block.WaveAfter.trans {k l : Nat} (hbc : b.WaveAfter p k c) (hcd : c.WaveAfter p l d) :
    b.WaveAfter p (k + l) d where
  run := hcd.run
  duty := hcd.duty.trans hbc.duty
  phase := by rw [hcd.phase, hbc.phase, Nat.mod_add_mod, Nat.add_assoc]
  lineKept h := by
    obtain ⟨hk, hl⟩ := Nat.add_eq_zero_iff.1 h
    exact (hcd.lineKept hl).trans (hbc.lineKept hk)
  lineDriven h := by
    cases l with
    | zero => exact (hcd.lineKept rfl).trans (hbc.lineDriven h)
    | succ l =>
      rw [hcd.lineDriven l.succ_pos, hbc.phase, hbc.duty, Nat.mod_add_mod, Nat.add_assoc]
      rfl

/-- A cycle without reset and without a write of another DutyTime adds its own fast tick. -/
theorem blockCycle_waveAfter (hp : p.wf) (hm : b.seqState = .run) (hb : b.phaseCounter.toNat < p.wavePeriod)
    (hr : i.rst = false) (hw : i.hValid = true → ∀ v, decodeHost i.hCmd = .ok (.wrDuty v) → v = b.dutyTime) :
    b.WaveAfter p (if i.pwmTick then 1 else 0) (blockCycle p b i).1 := by
  have run : (blockCycle p b i).1.seqState = .run := (blockCycle_seqState_of_run_or_halted hr (.inl hm)).trans hm
  have duty : (blockCycle p b i).1.dutyTime = b.dutyTime :=
    (blockCycle_dutyTime_cases hr).elim id fun ⟨hv, hc⟩ => hw hv _ hc
  obtain ⟨phase, line⟩ := blockCycle_wave_of_run (p := p) hm hr
  cases ht : i.pwmTick with
  | false =>
    obtain ⟨phase_kept, line_kept⟩ := afterTicks_wave_of_no_pwmTick (p := p) (b := b) ht
    exact {
      run, duty
      phase := by rw [phase, phase_kept]; exact (Nat.mod_eq_of_lt hb).symm
      lineKept := fun _ => line.trans line_kept
      lineDriven := nofun }
  | true =>
    exact {
      run, duty
      phase := by rw [phase, afterTicks_phaseCounter_of_pwmTick hm ht]; exact Block.nextPhase_toNat_eq_mod hp hb
      lineKept := nofun
      lineDriven := fun _ => by
        have in_period : (b.phaseCounter.toNat + (1 - 1)) % p.wavePeriod = b.phaseCounter.toNat := Nat.mod_eq_of_lt hb
        rw [blockCycle_outLine_of_pwmTick hm hr ht]
        refine decide_eq_decide.2 ?_
        rw [if_pos rfl, in_period, lt_min_iff]
        exact (and_iff_left hb).symm }

theorem runBlock_waveAfter (hp : p.wf) (is : List Inputs) (hm : b.seqState = .run)
    (hb : b.phaseCounter.toNat < p.wavePeriod) (hr : NoReset is)
    (hw : ∀ i ∈ is, i.hValid = true → ∀ v, decodeHost i.hCmd = .ok (.wrDuty v) → v = b.dutyTime) :
    b.WaveAfter p (is.countP (·.pwmTick)) (runBlock p b is) := by
  induction is generalizing b with
  | nil => exact .refl hm hb
  | cons i is ih =>
    obtain ⟨hri, hr⟩ := List.forall_mem_cons.1 hr
    obtain ⟨hwi, hw⟩ := List.forall_mem_cons.1 hw
    have cycle := blockCycle_waveAfter hp hm hb hri hwi
    have in_period : (blockCycle p b i).1.phaseCounter.toNat < p.wavePeriod :=
      cycle.phase ▸ Nat.mod_lt _ (Laws.wavePeriod_pos hp)
    rw [List.countP_cons, Nat.add_comm]
    exact cycle.trans (ih cycle.run in_period hr (cycle.duty ▸ hw))

end Sys2Proof.Machine
end

section
/-! The statements of 41_pwm_generator.md. -/

open Sys2Proof Sys2Proof.Machine

/-- Settles O25: the outcome of the tick in RUN and outside it, with the comparator and the wrap as numbers. -/
theorem pwmTickDrivesTheLine : Obligations.PwmTickDrivesTheLine :=
  ⟨by decide, fun s => ⟨fun hm =>
    ⟨_, exec_pwmTick_of_run hm, s.block.drivesHigh_iff _, s.block.nextPhase_toNat Laws.config_params_wf, rfl⟩,
    exec_pwmTick_of_not_run⟩⟩

/-- Settles O26: DUTY_MAX puts the threshold at WAVE_PERIOD, above every phase, and DUTY_MAX - 1 puts it at the last one. -/
theorem dutyAtItsBoundIsAlwaysHigh : Obligations.DutyAtItsBoundIsAlwaysHigh := by
  intro s hm hphase
  have offset_below : Config.params.minOffset < Config.params.wavePeriod := Laws.config_params_wf.2.1
  refine ⟨_, exec_pwmTick_of_run hm, fun hd => ?_, fun hd => ?_⟩ <;> rw [Params.dutyMax] at hd
  · exact (s.block.drivesHigh_iff _).2 (by omega)
  · rw [← Bool.not_eq_true, s.block.drivesHigh_iff]
    omega

/-- Settles O27: the wave of a run is put together from the waves of its cycles. -/
theorem waveformIsPeriodicUnderTraffic : Obligations.WaveformIsPeriodicUnderTraffic := by
  intro p b is hp hm hb hr hw
  have wave := runBlock_waveAfter hp is hm hb hr hw
  exact ⟨wave.run, wave.duty, wave.phase, wave.lineKept, wave.lineDriven⟩

/-- Settles O28: the number is WR_DUTY's word (O14), and HALTED alone refuses it. -/
theorem wrDutyStoresOrIsRefused : Obligations.WrDutyStoresOrIsRefused := by
  intro s v
  obtain ⟨-, -, -, -, -, -, -, -, word⟩ := encodeAndDecodeAreInverse
  refine ⟨decodeHost_hostWord (word v), fun hm => ?_, fun hm => ?_⟩
  · rw [exec_eq, applyOp_wrDuty_of_not_halted v hm]
    rfl
  · rw [exec_eq, applyOp_wrDuty_of_halted v hm]
    rfl

end

section
/-! SUPPORT. The operations of the Arming Sequencer on the block (42_arming_sequencer.md R101 to R109): the outcomes of BOOT,
the cases of SEQ_STEP, and STATUS as a number. -/

namespace Sys2Proof.Machine

variable {p : Params} {b : Block}

/-! ## BOOT (R101 to R103) -/

theorem applyOp_boot_one_of_idle (hm : b.seqState = .idle) : applyOp p (.boot 1#1) b =
    ({ b with seqState := .arming, seqPhase := .drive, iterCount := 0#16 }, some (okay 0#32)) := by
  simp [applyOp, opBoot, timebaseOk, hm]

theorem applyOp_boot_zero_of_idle (hm : b.seqState = .idle) :
    applyOp p (.boot 0#1) b = (b.raiseHalt, some (okay 0#32)) := by
  simp [applyOp, opBoot, timebaseOk, hm]

theorem applyOp_boot_of_not_idle (t : BitVec 1) (hm : b.seqState ≠ .idle) :
    applyOp p (.boot t) b = (b, some refusedByMode) := by
  cases hs : b.seqState with
  | idle => exact absurd hs hm
  | arming | run | halted => simp [applyOp, opBoot, hs]

/-! ## SEQ_STEP in ARMING, an equation per case (R104 to R108) -/

theorem opSeqStep_finish (hm : b.seqState = .arming) (hd : b.seqPhase = .drive)
    (hi : b.iterCount.toNat = p.armIterations) : opSeqStep p b = b.finishCase := by
  simp [opSeqStep, hm, hd, b.iterationsDone_iff p, hi]

theorem opSeqStep_drive (hm : b.seqState = .arming) (hd : b.seqPhase = .drive)
    (hi : b.iterCount.toNat ≠ p.armIterations) : opSeqStep p b = b.driveCase := by
  simp [opSeqStep, hm, hd, b.iterationsDone_iff p, hi]

theorem opSeqStep_endHold (hm : b.seqState = .arming) (hh : b.seqPhase = .hold)
    (served : b.holdTarget p ≤ b.elapsedMillis.toNat) : opSeqStep p b = b.endHold := by
  simp [opSeqStep, hm, hh, b.holdOver_iff p, served]

theorem opSeqStep_wait (hm : b.seqState = .arming) (hh : b.seqPhase = .hold)
    (more : b.elapsedMillis.toNat < b.holdTarget p) : opSeqStep p b = b := by
  simp [opSeqStep, hm, hh, b.holdOver_iff p, Nat.not_le.2 more]

theorem exec_seqStep (s : State) :
    exec .seqStep s = .next { s with block := opSeqStep Config.params s.block, response := none } :=
  exec_eq .seqStep s

/-! ## The arming iterations (R110, R111) -/

/-- The last hold before the finish case was a low one, since the number of iterations is even. -/
theorem Block.Inv.terminal (hp : p.wf) (h : b.Inv p) (hm : b.seqState = .arming) (hd : b.seqPhase = .drive)
    (hi : b.iterCount.toNat = p.armIterations) :
    b.outLine = false ∧ b.phaseCounter = 0 ∧ p.armLowMs ≤ b.elapsedMillis.toNat := by
  obtain ⟨-, -, -, ⟨even, positive, -⟩, -⟩ := hp
  have line : b.outLine = false := by
    rw [h.driveLine hm hd]
    exact decide_eq_false (by omega)
  have started : b.iterCount ≠ 0 := fun hz => by
    have : b.iterCount.toNat = 0 := congrArg BitVec.toNat hz
    omega
  have target : b.holdTarget p = p.armLowMs := by rw [Block.holdTarget, line]; rfl
  exact ⟨line, h.armingPhase hm, target ▸ h.holdWasServed hm hd started⟩

/-! ## RD_STATUS (R109) -/

/-- A concatenation as a number. -/
theorem bits_append_toNat {m n : Nat} (x : BitVec m) (y : BitVec n) : (x ++ y).toNat = x.toNat * 2 ^ n + y.toNat := by
  rw [BitVec.toNat_append, ← Nat.shiftLeft_add_eq_or_of_lt y.isLt, Nat.shiftLeft_eq]

/-- STATUS as the sum of its fields, the lowest first. -/
theorem Block.status_toNat (b : Block) : b.status.toNat = b.seqState.code.toNat + 4 * b.seqPhase.code.toNat +
    8 * b.genEn.toNat + 16 * b.outLine.toNat + 65536 * b.iterCount.toNat := by
  unfold Block.status
  rw [bits_append_toNat, bits_append_toNat, bits_append_toNat, bits_append_toNat, bits_append_toNat]
  simp only [BitVec.toNat_ofBool, BitVec.toNat_ofNat]
  omega

end Sys2Proof.Machine
end

section
/-! SUPPORT. One clock cycle in ARMING (42_arming_sequencer.md R104 to R108), the holds it is made of (R115), and the cycles
after the hand-over (R112). -/

namespace Sys2Proof.Machine

variable {p : Params} {b c d : Block} {i : Inputs}

/-! ## A cycle in ARMING -/

/-- What a cycle without reset makes of a block in ARMING: the case of SEQ_STEP, which tests the count `m` the cycle's tick
leaves. Beside it the host writes DutyTime, and ElapsedMillis only after the finish case. -/
inductive ArmingCycle (p : Params) (b : Block) (i : Inputs) (c : Block) : Prop where
  | finish (d : Word16) (m : Word32) (drive : b.seqPhase = .drive) (done : b.iterCount.toNat = p.armIterations)
      (result : c = { b.finishCase with dutyTime := d, elapsedMillis := m })
  | drive (d : Word16) (drive : b.seqPhase = .drive) (more : b.iterCount.toNat ≠ p.armIterations)
      (result : c = { b.driveCase with dutyTime := d })
  | endHold (d : Word16) (m : Word32) (hold : b.seqPhase = .hold)
      (count : m.toNat = min (b.elapsedMillis.toNat + if i.msTick then 1 else 0) (2 ^ 32 - 1))
      (served : b.holdTarget p ≤ m.toNat) (result : c = { b.endHold with dutyTime := d, elapsedMillis := m })
  | wait (d : Word16) (m : Word32) (hold : b.seqPhase = .hold)
      (count : m.toNat = min (b.elapsedMillis.toNat + if i.msTick then 1 else 0) (2 ^ 32 - 1))
      (more : m.toNat < b.holdTarget p) (result : c = { b with dutyTime := d, elapsedMillis := m })

/-- The ticks of a cycle in ARMING write ElapsedMillis only. -/
theorem afterTicks_eq_of_arming (hm : b.seqState = .arming) :
    afterTicks p b i = { b with elapsedMillis := (afterTicks p b i).elapsedMillis } := by
  rw [afterTicks_arming p b i hm]
  split <;> rfl

/-- Outside IDLE a command writes DutyTime and ElapsedMillis at most, and in ARMING not even ElapsedMillis. -/
theorem applyOp_host_of_not_idle {c : Instr} (hc : c.format = .host) (hm : b.seqState ≠ .idle) :
    ∃ d m, (applyOp p c b).1 = { b with dutyTime := d, elapsedMillis := m } ∧
      (b.seqState = .arming → m = b.elapsedMillis) := by
  obtain ⟨-, -, e | ⟨v, -, -, e⟩ | ⟨-, h, e⟩ | ⟨-, h, -⟩ | ⟨-, h, -⟩⟩ := applyOp_host_cases p c b hc
  · exact ⟨_, _, e, fun _ => rfl⟩
  · exact ⟨v, _, e, fun _ => rfl⟩
  · exact ⟨_, _, e, fun ha => absurd ha (ne_arming_of_idle_or_run h)⟩
  · exact absurd h hm
  · exact absurd h hm

theorem blockCycle_of_not_idle (hr : i.rst = false) (hm : (afterSequencer p b i).seqState ≠ .idle) :
    ∃ d m, (blockCycle p b i).1 = { afterSequencer p b i with dutyTime := d, elapsedMillis := m } ∧
      ((afterSequencer p b i).seqState = .arming → m = (afterSequencer p b i).elapsedMillis) := by
  obtain e | ⟨-, c, hc, e⟩ := blockCycle_cases p b i hr <;> rw [e]
  · exact ⟨_, _, rfl, fun _ => rfl⟩
  · exact applyOp_host_of_not_idle (decodeHost_format hc) hm

theorem blockCycle_armingCycle (hm : b.seqState = .arming) (hr : i.rst = false) :
    ArmingCycle p b i (blockCycle p b i).1 := by
  have count := afterTicks_elapsedMillis_toNat p b i
  have ticked := afterTicks_eq_of_arming (p := p) (i := i) hm
  have mode : (afterTicks p b i).seqState = .arming := by rw [afterTicks_seqState, hm]
  have sequencer : afterSequencer p b i = opSeqStep p (afterTicks p b i) := if_pos mode
  have host := blockCycle_of_not_idle (p := p) (b := b) hr
  generalize (afterTicks p b i).elapsedMillis = m at count ticked
  rw [ticked] at sequencer mode
  rw [sequencer] at host
  obtain ⟨h, -⟩ | ⟨-, hd, hi, e⟩ | ⟨-, hd, hi, e⟩ | ⟨-, hh, served, e⟩ | ⟨-, hh, more, e⟩ :=
    opSeqStep_cases p { b with elapsedMillis := m }
  · exact absurd mode h
  · rw [e] at host
    obtain ⟨d, n, result, -⟩ := host nofun
    exact .finish d n hd hi result
  · rw [e] at host
    obtain ⟨d, n, result, kept⟩ := host (by simp [hm])
    rw [kept hm] at result
    exact .drive d hd hi result
  · rw [e] at host
    obtain ⟨d, n, result, kept⟩ := host (by simp [hm])
    rw [kept hm] at result
    exact .endHold d m hh count served result
  · rw [e] at host
    obtain ⟨d, n, result, kept⟩ := host (by simp [hm])
    rw [kept hm] at result
    exact .wait d m hh count more result

/-! ## Runs -/

theorem runBlock_append (p : Params) (b : Block) (is js : List Inputs) :
    runBlock p b (is ++ js) = runBlock p (runBlock p b is) js := by
  induction is generalizing b with
  | nil => rfl
  | cons i is ih => exact ih _

theorem runBlock_keeps_inv (hp : p.wf) (h : b.Inv p) (is : List Inputs) : (runBlock p b is).Inv p := by
  induction is generalizing b with
  | nil => exact h
  | cons i is ih => exact ih (blockCycle_keeps_inv hp h i)

/-! ## One hold (R106, R108, R115) -/

theorem Block.holdTarget_le (hp : p.wf) (b : Block) : b.holdTarget p ≤ 2 ^ 32 - 1 := by
  obtain ⟨-, -, -, -, shorter, fits⟩ := hp
  dsimp only [Params.highShorter, Params.lowFits] at shorter fits
  rw [Block.holdTarget]
  split <;> omega

/-- The block `c` is still in the hold that `b` is in, `k` ticks later. -/
structure Block.HoldAfter (b : Block) (k : Nat) (c : Block) : Prop where
  arming : c.seqState = .arming
  hold : c.seqPhase = .hold
  count : c.iterCount = b.iterCount
  line : c.outLine = b.outLine
  millis : c.elapsedMillis.toNat = b.elapsedMillis.toNat + k

theorem Block.HoldAfter.holdTarget {k : Nat} (h : b.HoldAfter k c) : c.holdTarget p = b.holdTarget p := by
  rw [Block.holdTarget, h.line, Block.holdTarget]

theorem Block.HoldAfter.trans {k l : Nat} (hbc : b.HoldAfter k c) (hcd : c.HoldAfter l d) : b.HoldAfter (k + l) d where
  arming := hcd.arming
  hold := hcd.hold
  count := hcd.count.trans hbc.count
  line := hcd.line.trans hbc.line
  millis := by rw [hcd.millis, hbc.millis, Nat.add_assoc]

/-- Below its target a hold goes on, and its count does not saturate. -/
theorem blockCycle_holds (hp : p.wf) (hm : b.seqState = .arming) (hh : b.seqPhase = .hold) (hr : i.rst = false)
    (more : b.elapsedMillis.toNat + (if i.msTick then 1 else 0) < b.holdTarget p) :
    b.HoldAfter (if i.msTick then 1 else 0) (blockCycle p b i).1 := by
  have bound := b.holdTarget_le hp
  cases blockCycle_armingCycle (p := p) hm hr with
  | finish d m drive => cases hh.symm.trans drive
  | drive d drive => cases hh.symm.trans drive
  | endHold d m _ count served => omega
  | wait d m _ count _ result =>
    rw [result]
    exact { arming := hm, hold := hh, count := rfl, line := rfl, millis := by dsimp only; omega }

/-- The tick that reaches the target ends the hold. -/
theorem blockCycle_endsHold (hp : p.wf) (hm : b.seqState = .arming) (hh : b.seqPhase = .hold) (hr : i.rst = false)
    (served : b.holdTarget p ≤ b.elapsedMillis.toNat + if i.msTick then 1 else 0) :
    (blockCycle p b i).1.seqPhase = .drive ∧ (blockCycle p b i).1.iterCount = b.iterCount + 1 ∧
      (blockCycle p b i).1.outLine = b.outLine := by
  have bound := b.holdTarget_le hp
  cases blockCycle_armingCycle (p := p) hm hr with
  | finish d m drive => cases hh.symm.trans drive
  | drive d drive => cases hh.symm.trans drive
  | endHold d m _ _ _ result =>
    rw [result]
    exact ⟨rfl, rfl, rfl⟩
  | wait d m _ count more => omega

theorem runBlock_holds (hp : p.wf) (is : List Inputs) (hm : b.seqState = .arming) (hh : b.seqPhase = .hold)
    (hr : NoReset is) (more : b.elapsedMillis.toNat + msTicks is < b.holdTarget p) :
    b.HoldAfter (msTicks is) (runBlock p b is) := by
  induction is generalizing b with
  | nil => exact { arming := hm, hold := hh, count := rfl, line := rfl, millis := rfl }
  | cons i is ih =>
    obtain ⟨hri, hr⟩ := List.forall_mem_cons.1 hr
    have parts : msTicks (i :: is) = (if i.msTick then 1 else 0) + msTicks is := by
      rw [msTicks, List.countP_cons, Nat.add_comm, msTicks]
    rw [parts] at more ⊢
    have cycle := blockCycle_holds hp hm hh hri (by omega)
    exact cycle.trans (ih cycle.arming cycle.hold hr (by rw [cycle.millis, cycle.holdTarget]; omega))

/-! ## After the hand-over (R97, R112) -/

/-- Reset leaves IDLE. -/
theorem noReset_of_blockCycle_run (hrun : (blockCycle p b i).1.seqState = .run) : i.rst = false := by
  cases hr : i.rst with
  | false => rfl
  | true => simp [blockCycle, hr, Block.reset] at hrun

/-- A cycle that leaves ARMING for RUN is the finish case, which writes neither the line nor PhaseCounter. -/
theorem blockCycle_enters_run (hm : b.seqState = .arming) (hrun : (blockCycle p b i).1.seqState = .run) :
    b.seqPhase = .drive ∧ b.iterCount.toNat = p.armIterations ∧
      (blockCycle p b i).1.outLine = b.outLine ∧ (blockCycle p b i).1.phaseCounter = b.phaseCounter := by
  have hr := noReset_of_blockCycle_run hrun
  obtain ⟨hd, hi⟩ : b.seqPhase = .drive ∧ b.iterCount.toNat = p.armIterations := by
    by_contra hne
    rw [blockCycle_seqState_of_arming hr hm, if_neg hne] at hrun
    cases hrun
  cases blockCycle_armingCycle (p := p) hm hr with
  | finish d m _ _ result =>
    rw [result]
    exact ⟨hd, hi, rfl, rfl⟩
  | drive d _ more => exact absurd hi more
  | endHold d m hold => cases hd.symm.trans hold
  | wait d m hold => cases hd.symm.trans hold

theorem runBlock_run (is : List Inputs) (hm : b.seqState = .run) (hr : NoReset is) :
    (runBlock p b is).seqState = .run := by
  induction is generalizing b with
  | nil => exact hm
  | cons i is ih =>
    obtain ⟨hri, hr⟩ := List.forall_mem_cons.1 hr
    exact ih ((blockCycle_seqState_of_run_or_halted hri (.inl hm)).trans hm) hr

/-- Until a fast tick comes, RUN keeps the phase and the line. -/
theorem runBlock_wave_of_no_pwmTick (is : List Inputs) (hm : b.seqState = .run) (hr : NoReset is)
    (ht : ∀ k ∈ is, k.pwmTick = false) :
    (runBlock p b is).phaseCounter = b.phaseCounter ∧ (runBlock p b is).outLine = b.outLine := by
  induction is generalizing b with
  | nil => exact ⟨rfl, rfl⟩
  | cons i is ih =>
    obtain ⟨hri, hr⟩ := List.forall_mem_cons.1 hr
    obtain ⟨hti, ht⟩ := List.forall_mem_cons.1 ht
    obtain ⟨phase, line⟩ := blockCycle_wave_of_run (p := p) hm hri
    obtain ⟨phase_kept, line_kept⟩ := afterTicks_wave_of_no_pwmTick (p := p) (b := b) hti
    obtain ⟨later_phase, later_line⟩ := ih ((blockCycle_seqState_of_run_or_halted hri (.inl hm)).trans hm) hr ht
    exact ⟨later_phase.trans (phase.trans phase_kept), later_line.trans (line.trans line_kept)⟩

/-- A whole pulse begins at phase 0: the offset is positive, and the period is longer. -/
theorem blockCycle_first_pwmTick (hp : p.wf) (hm : b.seqState = .run) (hb : b.phaseCounter = 0) (hr : i.rst = false)
    (ht : i.pwmTick = true) :
    (blockCycle p b i).1.outLine = true ∧ (blockCycle p b i).1.phaseCounter = 1 := by
  have ⟨positive, below, _⟩ := hp
  have start : b.phaseCounter.toNat = 0 := congrArg BitVec.toNat hb
  obtain ⟨phase, -⟩ := blockCycle_wave_of_run (p := p) hm hr
  rw [blockCycle_outLine_of_pwmTick hm hr ht, phase, afterTicks_phaseCounter_of_pwmTick hm ht]
  refine ⟨decide_eq_true (by omega), BitVec.eq_of_toNat_eq ?_⟩
  rw [Block.nextPhase_toNat hp, start, if_neg (by omega)]
  rfl

end Sys2Proof.Machine
end

section
/-! SUPPORT. Whole arming runs (42_arming_sequencer.md R110, R114 to R116): what the iterations take in all, and how a cycle
moves the block on, in drive cases, completed holds, counted ticks and steps. -/

namespace Sys2Proof.Machine

variable {p : Params} {b c d : Block} {i : Inputs}

/-! ## The iterations (R110) -/

/-- The hold target of iteration `k`, counted from 0: the even iterations hold the line high. -/
def iterTarget (p : Params) (k : Nat) : Nat := if k % 2 = 0 then p.armHighMs else p.armLowMs

theorem Block.Inv.holdTarget_of_hold (h : b.Inv p) (hm : b.seqState = .arming) (hh : b.seqPhase = .hold) :
    b.holdTarget p = iterTarget p b.iterCount.toNat := by
  rw [Block.holdTarget, h.holdLine hm hh, iterTarget]
  simp only [decide_eq_true_eq]

/-- The iterations come in pairs of a high and a low one. -/
theorem sum_iterTarget (p : Params) (g : Nat → Nat) {n : Nat} (even : n % 2 = 0) :
    ∑ k ∈ Finset.range n, g (iterTarget p k) = n / 2 * (g p.armHighMs + g p.armLowMs) := by
  obtain ⟨m, rfl⟩ := Nat.dvd_of_mod_eq_zero even
  rw [Nat.mul_div_cancel_left m Nat.two_pos]
  clear even
  induction m with
  | zero => simp
  | succ m ih =>
    have high : iterTarget p (2 * m) = p.armHighMs := if_pos (by omega)
    have low : iterTarget p (2 * m + 1) = p.armLowMs := if_neg (by omega)
    rw [Nat.mul_succ, Finset.sum_range_succ, Finset.sum_range_succ, ih, high, low, Nat.succ_mul, Nat.add_assoc]

theorem Block.ArmingBegins.inv (hp : p.wf) (h : b.ArmingBegins) : b.Inv p := by
  obtain ⟨mode, phase, count, line, counter⟩ := h
  exact {
    phaseInRange := by rw [counter]; exact Laws.wavePeriod_pos hp
    iterInRange := by rw [count]; exact Nat.zero_le _
    idleIsInitial := fun hs => by simp [mode] at hs
    haltedIsInitial := fun hs => by simp [mode] at hs
    armingPhase := fun _ => counter
    runIsArmed := fun hs => by simp [mode] at hs
    driveLine := fun _ _ => by rw [line, count]; rfl
    holdLine := fun _ hh => by simp [phase] at hh
    holdCounts := fun _ hh => by simp [phase] at hh
    holdWasServed := fun _ _ hi => absurd count hi }

/-- IterCount does not wrap at the end of a hold: the hold belongs to an iteration not yet completed. -/
theorem Block.Inv.endHold_iterCount_toNat (hp : p.wf) (h : b.Inv p) (hm : b.seqState = .arming)
    (hh : b.seqPhase = .hold) : b.endHold.iterCount.toNat = b.iterCount.toNat + 1 := by
  have more := h.holdCounts hm hh
  obtain ⟨-, -, -, ⟨-, -, fits⟩, -⟩ := hp
  simp only [endHold_iterCount, BitVec.toNat_add, BitVec.toNat_ofNat]
  omega

/-! ## Drive cases, completed holds and counted ticks (R114, R115) -/

/-- The drive cases since `BOOT #1`: one per completed iteration, and the one that began the hold. -/
def Block.drivesBegun (b : Block) : Nat :=
  b.iterCount.toNat + match b.seqPhase with
    | .drive => 0
    | .hold => 1

/-- The ticks counted since `BOOT #1`: all of the completed iterations, and those of the hold up to its target. -/
def Block.ticksServed (p : Params) (b : Block) : Nat :=
  ∑ k ∈ Finset.range b.iterCount.toNat, iterTarget p k + match b.seqPhase with
    | .drive => 0
    | .hold => min b.elapsedMillis.toNat (b.holdTarget p)

theorem Block.drivesBegun_of_drive (hd : b.seqPhase = .drive) : b.drivesBegun = b.iterCount.toNat := by
  simp [Block.drivesBegun, hd]

theorem Block.drivesBegun_of_hold (hh : b.seqPhase = .hold) : b.drivesBegun = b.iterCount.toNat + 1 := by
  simp [Block.drivesBegun, hh]

theorem Block.ticksServed_of_drive (hd : b.seqPhase = .drive) :
    b.ticksServed p = ∑ k ∈ Finset.range b.iterCount.toNat, iterTarget p k := by
  simp [Block.ticksServed, hd]

theorem Block.ticksServed_of_hold (hh : b.seqPhase = .hold) : b.ticksServed p =
    ∑ k ∈ Finset.range b.iterCount.toNat, iterTarget p k + min b.elapsedMillis.toNat (b.holdTarget p) := by
  simp [Block.ticksServed, hh]

/-- The run `is` from `b` to `c` counts what the elements of the two blocks say has been done in it. -/
structure Block.Progress (p : Params) (b : Block) (is : List Inputs) (c : Block) : Prop where
  drives : driveCases p b is + b.drivesBegun = c.drivesBegun
  holds : holdsEnded p b is + b.iterCount.toNat = c.iterCount.toNat
  ticks : countedTicks p b is + b.ticksServed p = c.ticksServed p

theorem Block.Progress.refl (p : Params) (b : Block) : b.Progress p [] b where
  drives := Nat.zero_add _
  holds := Nat.zero_add _
  ticks := Nat.zero_add _

/-- A run counts what its first cycle counts and what the rest counts. -/
theorem Block.Progress.cons {is : List Inputs} (first : b.Progress p [i] (blockCycle p b i).1)
    (rest : (blockCycle p b i).1.Progress p is d) : b.Progress p (i :: is) d where
  drives := by
    have parts : driveCases p b (i :: is) = driveCases p b [i] + driveCases p (blockCycle p b i).1 is := rfl
    rw [parts, ← rest.drives, ← first.drives]
    omega
  holds := by
    have parts : holdsEnded p b (i :: is) = holdsEnded p b [i] + holdsEnded p (blockCycle p b i).1 is := rfl
    rw [parts, ← rest.holds, ← first.holds]
    omega
  ticks := by
    have parts : countedTicks p b (i :: is) = countedTicks p b [i] + countedTicks p (blockCycle p b i).1 is := rfl
    rw [parts, ← rest.ticks, ← first.ticks]
    omega

/-- In a hold a tick is counted up to the target. -/
theorem countedTicks_of_hold (hm : b.seqState = .arming) (hh : b.seqPhase = .hold) :
    countedTicks p b [i] + min b.elapsedMillis.toNat (b.holdTarget p) =
      min (b.elapsedMillis.toNat + if i.msTick then 1 else 0) (b.holdTarget p) := by
  have counted : countedTicks p b [i] =
      if i.msTick = true ∧ b.elapsedMillis.toNat < b.holdTarget p then 1 else 0 := by
    simp [countedTicks, hm, hh]
  rw [counted]
  cases i.msTick with
  | false => simp
  | true =>
    simp only [true_and, if_true]
    split <;> omega

theorem blockCycle_progress_of_arming (hp : p.wf) (h : b.Inv p) (hm : b.seqState = .arming) (hr : i.rst = false) :
    b.Progress p [i] (blockCycle p b i).1 := by
  cases blockCycle_armingCycle (p := p) hm hr with
  | finish d m drive _ result =>
    exact {
      drives := by simp [driveCases, clockStep, result, Block.drivesBegun]
      holds := by simp [holdsEnded, drive, result]
      ticks := by simp [countedTicks, drive, result, Block.ticksServed] }
  | drive d drive _ result =>
    exact {
      drives := by simp [driveCases, clockStep, hm, drive, result, Block.drivesBegun, Nat.add_comm]
      holds := by simp [holdsEnded, drive, result]
      ticks := by simp [countedTicks, drive, result, Block.ticksServed] }
  | endHold d m hold count served result =>
    have bound := b.holdTarget_le hp
    have next := h.endHold_iterCount_toNat hp hm hold
    have target := h.holdTarget_of_hold hm hold
    have ticked := countedTicks_of_hold (p := p) (i := i) hm hold
    exact {
      drives := by
        rw [result, Block.drivesBegun_of_hold hold, Block.drivesBegun_of_drive rfl, next]
        simp [driveCases, hold]
      holds := by
        rw [result, next]
        simp [holdsEnded, clockStep, hm, hold, result, Nat.add_comm]
      ticks := by
        rw [result, Block.ticksServed_of_hold hold, Block.ticksServed_of_drive rfl, next, Finset.sum_range_succ,
          ← target]
        omega }
  | wait d m hold count more =>
    have bound := b.holdTarget_le hp
    have held := blockCycle_holds hp hm hold hr (by omega)
    exact {
      drives := by
        rw [Block.drivesBegun_of_hold hold, Block.drivesBegun_of_hold held.hold, held.count]
        simp [driveCases, hold]
      holds := by
        rw [held.count]
        simp [holdsEnded, clockStep, held.hold]
      ticks := by
        rw [Block.ticksServed_of_hold hold, Block.ticksServed_of_hold held.hold, held.count, held.holdTarget, held.millis,
          ← countedTicks_of_hold hm hold, Nat.add_left_comm] }

/-- RUN writes neither IterCount nor SeqPhase, and nothing is counted in it. -/
theorem blockCycle_progress_of_run (h : b.Inv p) (hm : b.seqState = .run) (hr : i.rst = false) :
    b.Progress p [i] (blockCycle p b i).1 := by
  have after : afterSequencer p b i = afterTicks p b i := afterSequencer_of_not_arming p i (by simp [hm])
  obtain ⟨d, m, result, -⟩ := blockCycle_of_not_idle (p := p) (b := b) hr (by simp [after, hm])
  obtain ⟨-, drive⟩ := h.runIsArmed hm
  rw [after] at result
  exact {
    drives := by simp [driveCases, hm, result, Block.drivesBegun]
    holds := by simp [holdsEnded, hm, result]
    ticks := by simp [countedTicks, hm, drive, result, Block.ticksServed] }

theorem runBlock_progress (hp : p.wf) (is : List Inputs) (h : b.Inv p) (hm : b.seqState = .arming ∨ b.seqState = .run)
    (hr : NoReset is) : b.Progress p is (runBlock p b is) := by
  induction is generalizing b with
  | nil => exact .refl p b
  | cons i is ih =>
    obtain ⟨hri, hr⟩ := List.forall_mem_cons.1 hr
    have inv := blockCycle_keeps_inv hp h i
    obtain hm | hm := hm
    · have mode : (blockCycle p b i).1.seqState = .arming ∨ (blockCycle p b i).1.seqState = .run := by
        rw [blockCycle_seqState_of_arming hri hm]
        split
        · exact .inr rfl
        · exact .inl rfl
      exact (blockCycle_progress_of_arming hp h hm hri).cons (ih inv mode hr)
    · have mode := (blockCycle_seqState_of_run_or_halted (p := p) hri (.inl hm)).trans hm
      exact (blockCycle_progress_of_run h hm hri).cons (ih inv (.inr mode) hr)

/-! ## Steps (R116) -/

/-- The steps of the iterations from `k` on, and of the finish: a drive step and at least one hold step each. -/
def stepsFrom (p : Params) (k : Nat) : Nat :=
  ∑ j ∈ Finset.Ico k p.armIterations, (1 + max 1 (iterTarget p j)) + 1

/-- The steps a block in ARMING still takes to RUN when a millisecond tick comes in each. -/
def Block.stepsLeft (p : Params) (b : Block) : Nat :=
  match b.seqPhase with
  | .drive => stepsFrom p b.iterCount.toNat
  | .hold => max 1 (b.holdTarget p - b.elapsedMillis.toNat) + stepsFrom p (b.iterCount.toNat + 1)

theorem stepsFrom_done (p : Params) : stepsFrom p p.armIterations = 1 := by
  simp [stepsFrom]

theorem stepsFrom_of_lt {k : Nat} (h : k < p.armIterations) :
    stepsFrom p k = 1 + max 1 (iterTarget p k) + stepsFrom p (k + 1) := by
  rw [stepsFrom, Finset.sum_eq_sum_Ico_succ_bot h, stepsFrom, Nat.add_assoc]

theorem stepsFrom_zero (hp : p.wf) :
    stepsFrom p 0 = p.armIterations / 2 * ((1 + max 1 p.armHighMs) + (1 + p.armLowMs)) + 1 := by
  obtain ⟨-, -, -, ⟨even, -⟩, shorter, -⟩ := hp
  have low : max 1 p.armLowMs = p.armLowMs := max_eq_right (Nat.one_le_of_lt shorter)
  rw [stepsFrom, ← Finset.range_eq_Ico, sum_iterTarget p (fun n => 1 + max 1 n) even, low]

theorem Block.stepsLeft_of_drive (hd : b.seqPhase = .drive) : b.stepsLeft p = stepsFrom p b.iterCount.toNat := by
  simp [Block.stepsLeft, hd]

theorem Block.stepsLeft_of_hold (hh : b.seqPhase = .hold) : b.stepsLeft p =
    max 1 (b.holdTarget p - b.elapsedMillis.toNat) + stepsFrom p (b.iterCount.toNat + 1) := by
  simp [Block.stepsLeft, hh]

theorem Block.stepsLeft_pos (p : Params) (b : Block) : 0 < b.stepsLeft p := by
  unfold Block.stepsLeft stepsFrom
  split <;> omega

/-- A cycle with a tick is one of the steps left, the last one if it enters RUN. -/
theorem blockCycle_stepsLeft (hp : p.wf) (h : b.Inv p) (hm : b.seqState = .arming) (hr : i.rst = false)
    (ht : i.msTick = true) :
    ((blockCycle p b i).1.seqState = .arming ∧ b.stepsLeft p = (blockCycle p b i).1.stepsLeft p + 1) ∨
    ((blockCycle p b i).1.seqState = .run ∧ b.stepsLeft p = 1) := by
  cases blockCycle_armingCycle (p := p) hm hr with
  | finish d m drive done result =>
    rw [result, Block.stepsLeft_of_drive drive, done]
    exact .inr ⟨rfl, stepsFrom_done p⟩
  | drive d drive more result =>
    have inv := blockCycle_keeps_inv hp h i
    rw [result] at inv ⊢
    rw [Block.stepsLeft_of_drive drive, stepsFrom_of_lt (lt_of_le_of_ne h.iterInRange more),
      Block.stepsLeft_of_hold rfl, inv.holdTarget_of_hold hm rfl]
    refine .inl ⟨hm, ?_⟩
    change 1 + max 1 (iterTarget p b.iterCount.toNat) + stepsFrom p (b.iterCount.toNat + 1) =
      max 1 (iterTarget p b.iterCount.toNat - 0) + stepsFrom p (b.iterCount.toNat + 1) + 1
    omega
  | endHold d m hold count served result =>
    rw [result, Block.stepsLeft_of_hold hold, Block.stepsLeft_of_drive rfl, h.endHold_iterCount_toNat hp hm hold]
    refine .inl ⟨hm, ?_⟩
    rw [ht, if_pos rfl] at count
    omega
  | wait d m hold count more =>
    have bound := b.holdTarget_le hp
    have held := blockCycle_holds hp hm hold hr (by omega)
    rw [Block.stepsLeft_of_hold hold, Block.stepsLeft_of_hold held.hold, held.count, held.holdTarget, held.millis]
    refine .inl ⟨held.arming, ?_⟩
    rw [ht, if_pos rfl] at count ⊢
    omega

theorem runBlock_seqState_of_ticks (hp : p.wf) (is : List Inputs) (h : b.Inv p) (hm : b.seqState = .arming)
    (hr : NoReset is) (ht : ∀ i ∈ is, i.msTick = true) :
    (runBlock p b is).seqState = if is.length < b.stepsLeft p then .arming else .run := by
  induction is generalizing b with
  | nil => exact hm.trans (if_pos (b.stepsLeft_pos p)).symm
  | cons i is ih =>
    obtain ⟨hri, hr⟩ := List.forall_mem_cons.1 hr
    obtain ⟨hti, ht⟩ := List.forall_mem_cons.1 ht
    obtain ⟨mode, left⟩ | ⟨mode, left⟩ := blockCycle_stepsLeft hp h hm hri hti
    · rw [left, List.length_cons]
      simp only [Nat.add_lt_add_iff_right]
      exact ih (blockCycle_keeps_inv hp h i) mode hr ht
    · rw [left, List.length_cons, if_neg (by omega)]
      exact runBlock_run is mode hr

end Sys2Proof.Machine
end

section
/-! The statements of 42_arming_sequencer.md. -/

open Sys2Proof Sys2Proof.Machine

/-- Settles O29: the three outcomes of BOOT, under its two words. -/
theorem bootArmsHaltsOrIsRefused : Obligations.BootArmsHaltsOrIsRefused := by
  refine ⟨decodeHost_hostWord rfl, decodeHost_hostWord rfl, fun s => ⟨fun hm => ?_, fun hm => ?_, fun t hm => ?_⟩⟩
  · rw [exec_eq, applyOp_boot_one_of_idle hm]
    rfl
  · rw [exec_eq, applyOp_boot_zero_of_idle hm]
    rfl
  · rw [exec_eq, applyOp_boot_of_not_idle t hm]
    rfl

/-- Settles O30: the selector, and one equation of `opSeqStep` per case. -/
theorem seqStepDrivesHoldsOrFinishes : Obligations.SeqStepDrivesHoldsOrFinishes := by
  refine ⟨fun m => by simp [Laws.decodeSelector_code], fun s hm => ?_⟩
  simp only [exec_seqStep]
  refine ⟨fun hd hi => ?_, fun hd hi => ?_, fun hh served => ⟨s.block.iterCount + 1#16, fun fits => ?_, ?_⟩,
    fun hh more => ?_⟩
  · rw [opSeqStep_finish hm hd hi]
    rfl
  · rw [opSeqStep_drive hm hd hi]
    rfl
  · simp only [BitVec.toNat_add, BitVec.toNat_ofNat]
    omega
  · rw [opSeqStep_endHold hm hh served]
    rfl
  · rw [opSeqStep_wait hm hh more]

/-- Settles O31: the finish case writes the mode only, so the terminal elements of the invariant stand. -/
theorem finishCaseLeavesTheTerminalState : Obligations.FinishCaseLeavesTheTerminalState := by
  intro s h hm hd hi
  refine ⟨_, exec_seqStep s, ?_⟩
  rw [opSeqStep_finish hm hd hi]
  exact ⟨rfl, Block.Inv.terminal (b := s.block) Laws.config_params_wf h hm hd hi⟩

/-- Settles O32: the read answers with STATUS, whose number is the sum of its fields. -/
theorem rdStatusReturnsTheFields : Obligations.RdStatusReturnsTheFields := by
  refine ⟨decodeHost_hostWord rfl, fun s => ⟨s.block.status, exec_eq .rdStatus s, ?_⟩⟩
  rw [Block.status_toNat]
  congr 4
  · cases s.block.seqState <;> rfl
  · cases s.block.seqPhase <;> rfl
  · cases hm : s.block.seqState <;> simp [Block.genEn, hm]
  · cases s.block.outLine <;> rfl

/-- Settles O33: the finish case leaves the terminal elements, RUN keeps them until a fast tick, and that tick begins a
pulse. -/
theorem handOverIsWithoutAGlitch : Obligations.HandOverIsWithoutAGlitch := by
  intro p b i j waiting hp h hm hrun hw hnt hrj htj c d
  obtain ⟨hd, hi, line, phase⟩ := blockCycle_enters_run hm hrun
  obtain ⟨low, zero, -⟩ := h.terminal hp hm hd hi
  obtain ⟨phase_kept, line_kept⟩ := runBlock_wave_of_no_pwmTick (p := p) waiting hrun hw hnt
  have c_low : c.outLine = false := line.trans low
  have c_zero : c.phaseCounter = 0 := phase.trans zero
  have d_zero : d.phaseCounter = 0 := phase_kept.trans c_zero
  obtain ⟨high, one⟩ := blockCycle_first_pwmTick hp (runBlock_run waiting hrun hw) d_zero hrj htj
  exact ⟨c_low, c_low, c_zero, line_kept.trans c_low, d_zero, high, one⟩

/-- Settles O34: a run counts what its last block says has been done, which in RUN is every iteration. -/
theorem armingCountsExactly : Obligations.ArmingCountsExactly := by
  intro p b is hp begins hr hrun
  have inv := begins.inv hp
  obtain ⟨mode, phase, count, -⟩ := begins
  have ⟨_, _, _, ⟨even, _⟩, _⟩ := hp
  have start : b.iterCount.toNat = 0 := congrArg BitVec.toNat count
  obtain ⟨drives, holds, ticks⟩ := runBlock_progress hp is inv (.inl mode) hr
  obtain ⟨done, last⟩ := (runBlock_keeps_inv hp inv is).runIsArmed hrun
  rw [Block.drivesBegun_of_drive phase, Block.drivesBegun_of_drive last, start, done] at drives
  rw [start, done] at holds
  rw [Block.ticksServed_of_drive phase, Block.ticksServed_of_drive last, start, done,
    Finset.sum_range_zero] at ticks
  exact ⟨drives, holds, ticks.trans (sum_iterTarget p id even)⟩

/-- Settles O35: below the target every cycle goes on with the hold, and the tick that reaches it ends it. -/
theorem holdEndsAtItsLastTick : Obligations.HoldEndsAtItsLastTick := by
  intro p b is j hp hm hh hz hr hrj
  have start : b.elapsedMillis.toNat = 0 := congrArg BitVec.toNat hz
  refine ⟨fun more => ?_, fun last tick => ?_, fun zero => ?_⟩
  · have held := runBlock_holds hp is hm hh hr (by omega)
    exact ⟨held.hold, held.count, held.line⟩
  · have held := runBlock_holds hp is hm hh hr (by omega)
    have served : (runBlock p b is).holdTarget p ≤ (runBlock p b is).elapsedMillis.toNat + if j.msTick then 1 else 0 := by
      rw [held.holdTarget, held.millis, tick, if_pos rfl]
      omega
    obtain ⟨phase, count, line⟩ := blockCycle_endsHold hp held.arming held.hold hrj served
    rw [runBlock_append]
    exact ⟨phase, count.trans (congrArg (· + 1) held.count), line.trans held.line⟩
  · exact blockCycle_endsHold hp hm hh hrj (by omega)

/-- Settles O36: each cycle is one of the steps left, of which there are `n` at the start. -/
theorem armingEndsWhileTicksCome : Obligations.ArmingEndsWhileTicksCome := by
  intro p b is hp begins hr ht n
  have inv := begins.inv hp
  obtain ⟨mode, phase, count, -⟩ := begins
  have steps : b.stepsLeft p = n := by
    rw [Block.stepsLeft_of_drive phase, count]
    exact stepsFrom_zero hp
  have run := runBlock_seqState_of_ticks hp is inv mode hr ht
  rw [steps] at run
  exact ⟨fun fewer => run.trans (if_pos fewer), fun enough => run.trans (if_neg (Nat.not_lt.2 enough))⟩

end

section
/-! SUPPORT. What is observed of the block beside its waveform (60_exceptions.md): the answer to a host command, by the
permission table (R124) and by the cycle it is presented in (R122), a cycle in HALTED (R121), and the two ticks in either
order (R129). -/

namespace Sys2Proof.Machine

variable {p : Params} {b : Block} {i : Inputs} {c : Instr}

/-! ## The permission table (R124) -/

/-- A command outside the table's modes changes nothing and is refused. -/
theorem applyOp_of_not_permitted (h : permitted c b.seqState = false) : applyOp p c b = (b, some refusedByMode) := by
  cases c with
  | msTick | pwmTick | seqStep | rdStatus | rdDuty | rdMillis | rdPhase => cases h
  | boot t => exact applyOp_boot_of_not_idle t (of_decide_eq_false h)
  | wrDuty v => exact applyOp_wrDuty_of_halted v (not_not.1 (of_decide_eq_false h))
  | clrMillis =>
    refine applyOp_clrMillis_of_arming_or_halted ?_
    cases hm : b.seqState with
    | arming => exact .inl rfl
    | halted => exact .inr rfl
    | idle | run => simp [permitted, hm] at h

/-- A host command in the table's modes is answered OKAY. -/
theorem applyOp_okay_of_permitted (hc : c.format = .host) (h : permitted c b.seqState = true) :
    ∃ d, (applyOp p c b).2 = some ⟨.okay, d⟩ := by
  cases c with
  | msTick | pwmTick | seqStep => cases hc
  | rdStatus | rdDuty | rdMillis | rdPhase => exact ⟨_, rfl⟩
  | boot t =>
    have hm : b.seqState = .idle := of_decide_eq_true h
    obtain rfl | rfl := BitVec.eq_zero_or_eq_one t
    · rw [applyOp_boot_zero_of_idle hm]
      exact ⟨_, rfl⟩
    · rw [applyOp_boot_one_of_idle hm]
      exact ⟨_, rfl⟩
  | wrDuty v =>
    rw [applyOp_wrDuty_of_not_halted v (of_decide_eq_true h)]
    exact ⟨_, rfl⟩
  | clrMillis =>
    rw [applyOp_clrMillis_of_idle_or_run (of_decide_eq_true h)]
    exact ⟨_, rfl⟩

/-! ## The response of a cycle (R122, R123) -/

/-- A host word is answered, and an error carries no data. -/
theorem exists_applyWord_response (p : Params) (w : CmdWord) (b : Block) :
    ∃ r, (applyWord p w b).2 = some r ∧ (r.code.isError = true → r.data = 0) := by
  unfold applyWord
  cases hw : decodeHost w with
  | error k => exact ⟨reservedWord, rfl, fun _ => rfl⟩
  | ok c =>
    cases h : permitted c b.seqState with
    | false => exact ⟨refusedByMode, congrArg Prod.snd (applyOp_of_not_permitted h), fun _ => rfl⟩
    | true =>
      obtain ⟨d, answer⟩ := applyOp_okay_of_permitted (p := p) (decodeHost_format hw) h
      exact ⟨_, answer, nofun⟩

/-- A cycle answers the host word it is presented, unless it resets. -/
theorem blockCycle_response_cases (p : Params) (b : Block) (i : Inputs) :
    (¬ (i.hValid = true ∧ i.rst = false) ∧ (blockCycle p b i).2 = none) ∨
    ((i.hValid = true ∧ i.rst = false) ∧
      ∃ r, (blockCycle p b i).2 = some r ∧ (r.code.isError = true → r.data = 0)) := by
  cases hr : i.rst with
  | true => exact .inl ⟨nofun, by simp [blockCycle, hr]⟩
  | false =>
    cases hv : i.hValid with
    | false => exact .inl ⟨nofun, by simp [blockCycle, hr, hv]⟩
    | true =>
      have answered : blockCycle p b i = applyWord p i.hCmd (afterSequencer p b i) := by simp [blockCycle, hr, hv]
      exact .inr ⟨⟨rfl, rfl⟩, answered ▸ exists_applyWord_response p i.hCmd _⟩

theorem blockCycle_response_isSome_iff (p : Params) (b : Block) (i : Inputs) :
    (blockCycle p b i).2.isSome = true ↔ i.hValid = true ∧ i.rst = false := by
  obtain ⟨unasked, silence⟩ | ⟨asked, r, answer, -⟩ := blockCycle_response_cases p b i
  · exact iff_of_false (by simp [silence]) unasked
  · exact iff_of_true (by simp [answer]) asked

theorem blockCycle_error_data {r : Response} (h : (blockCycle p b i).2 = some r) : r.code.isError = true → r.data = 0 := by
  obtain ⟨-, silence⟩ | ⟨-, r, answer, data⟩ := blockCycle_response_cases p b i
  · cases silence.symm.trans h
  · cases answer.symm.trans h
    exact data

theorem response_of_step {s t : State} (h : step s = .next t) :
    t.response = (blockCycle Config.params s.block s.nextInputs).2 := by
  rw [step_eq_blockCycle] at h
  cases h
  rfl

theorem State.outputs_of_response {s : State} {r : Response} (h : s.response = some r) :
    s.outputs = ⟨s.block.outLine, r.code.bits, r.data⟩ := by
  rw [State.outputs, h]
  rfl

theorem State.outputs_of_no_response {s : State} (h : s.response = none) : s.outputs = ⟨s.block.outLine, 0, 0⟩ := by
  rw [State.outputs, h]
  rfl

/-! ## A cycle in HALTED (R121) -/

/-- Outside RUN the ticks write ElapsedMillis only. -/
theorem afterTicks_eq_of_not_run (hm : b.seqState ≠ .run) :
    afterTicks p b i = { b with elapsedMillis := (afterTicks p b i).elapsedMillis } := by
  have ticked : afterTicks p b i = if i.msTick then b.incrementMillis else b := by
    dsimp only [afterTicks, opMsTick]
    split
    · exact opPwmTick_other p (by split <;> exact hm)
    · rfl
  rw [ticked]
  split <;> rfl

/-- In HALTED no command changes the block. -/
theorem applyOp_host_block_of_halted (hc : c.format = .host) (hm : b.seqState = .halted) : (applyOp p c b).1 = b := by
  obtain ⟨-, -, h | ⟨-, -, h, -⟩ | ⟨-, h, -⟩ | ⟨-, h, -⟩ | ⟨-, h, -⟩⟩ := applyOp_host_cases p c b hc
  · exact h
  · exact absurd hm h
  · simp [hm] at h
  · simp [hm] at h
  · simp [hm] at h

theorem afterSequencer_of_halted (hm : b.seqState = .halted) : afterSequencer p b i = afterTicks p b i :=
  afterSequencer_of_not_arming p i (by simp [hm])

/-- In HALTED a cycle without reset is its ticks. -/
theorem blockCycle_block_of_halted (hm : b.seqState = .halted) (hr : i.rst = false) :
    (blockCycle p b i).1 = afterTicks p b i := by
  obtain h | ⟨-, c, hc, h⟩ := blockCycle_cases p b i hr <;> rw [h, afterSequencer_of_halted hm]
  exact applyOp_host_block_of_halted (decodeHost_format hc) (by rw [afterTicks_seqState, hm])

/-- In HALTED a command is answered in HALTED, for the ticks keep the mode. -/
theorem blockCycle_response_of_halted (hm : b.seqState = .halted) (hr : i.rst = false) (hv : i.hValid = true)
    (hc : decodeHost i.hCmd = .ok c) :
    (permitted c .halted = true → ∃ d, (blockCycle p b i).2 = some ⟨.okay, d⟩) ∧
    (permitted c .halted = false → (blockCycle p b i).2 = some refusedByMode) := by
  have mode : (afterTicks p b i).seqState = .halted := by rw [afterTicks_seqState, hm]
  rw [blockCycle_of_command hr hv hc, afterSequencer_of_halted hm, ← mode]
  exact ⟨applyOp_okay_of_permitted (decodeHost_format hc),
    fun h => congrArg Prod.snd (applyOp_of_not_permitted h)⟩

/-! ## The order of the ticks (R129) -/

/-- MS_TICK writes ElapsedMillis, which PWM_TICK neither reads nor writes. -/
theorem opPwmTick_opMsTick_comm (p : Params) (b : Block) : opPwmTick p (opMsTick b) = opMsTick (opPwmTick p b) := by
  by_cases hm : b.seqState = .run
  · rw [opPwmTick_run (b := opMsTick b) p hm, opPwmTick_run p hm]
    rfl
  · rw [opPwmTick_other (b := opMsTick b) p hm, opPwmTick_other p hm]

end Sys2Proof.Machine
end

section
/-! The statements of 60_exceptions.md. -/

open Sys2Proof Sys2Proof.Machine

/-- Settles O38: the ticks of HALTED write ElapsedMillis only, nothing after them writes the block, and the table permits
the reads alone. -/
theorem haltedOnlyCountsMillis : Obligations.HaltedOnlyCountsMillis := by
  intro s legal hm hr
  obtain ⟨-, -, phase, line⟩ := legal.haltedIsInitial hm
  have cycle := blockCycle_block_of_halted (p := Config.params) hm hr
  have frame := afterTicks_eq_of_not_run (p := Config.params) (b := s.block) (i := s.nextInputs) (by simp [hm])
  have count := afterTicks_elapsedMillis_toNat Config.params s.block s.nextInputs
  refine ⟨_, step_eq_blockCycle s, ?_, ?_, ?_, ?_, fun c hv hc => ?_⟩
  · exact cycle ▸ frame
  · have := s.block.elapsedMillis.isLt
    rw [cycle, count]
    split <;> omega
  · rw [State.pwmOut, cycle, frame, line]
  · rw [cycle, frame, phase]
  · obtain ⟨answered, refused⟩ := blockCycle_response_of_halted (p := Config.params) hm hr hv hc
    refine ⟨?_, ?_, ?_⟩
    · rintro v (rfl | rfl) <;> exact refused rfl
    · rintro v rfl
      exact refused rfl
    · rintro (rfl | rfl | rfl | rfl) <;> exact answered rfl

/-- Settles O39: the response of the cycle, and the outputs that show it. -/
theorem everyCommandGetsOneResponse : Obligations.EveryCommandGetsOneResponse := by
  intro s t h
  have response := response_of_step h
  refine ⟨response ▸ blockCycle_response_isSome_iff Config.params s.block s.nextInputs,
    fun r ht => blockCycle_error_data (response ▸ ht), fun r ht => ?_, fun ht => ?_⟩
  · rw [State.outputs_of_response ht]
    refine ⟨rfl, ?_⟩
    cases r.code <;> rfl
  · rw [State.outputs_of_no_response ht]
    exact ⟨rfl, rfl⟩

/-- Settles O40: `exec` answers as the operation on the block does, and each value of the table has its lemma there. -/
theorem commandsFollowThePermissionTable : Obligations.CommandsFollowThePermissionTable := by
  intro c s hc
  cases h : permitted c s.block.seqState with
  | false =>
    have refused := applyOp_of_not_permitted (p := Config.params) h
    exact ⟨_, refusedByMode, exec_eq c s, congrArg Prod.snd refused, nofun,
      fun _ => ⟨rfl, congrArg Prod.fst refused⟩⟩
  | true =>
    obtain ⟨d, answer⟩ := applyOp_okay_of_permitted (p := Config.params) hc h
    exact ⟨_, _, exec_eq c s, answer, fun _ => rfl, nofun⟩

/-- Settles O41: the ticks commute on the block, and neither leaves a response. -/
theorem tickOrderIsNotObservable : Obligations.TickOrderIsNotObservable := by
  intro s
  simp only [runOps, exec_eq, andThen_next, applyOp, opPwmTick_opMsTick_comm]

end

section
/-! SUPPORT. Arming without millisecond ticks (42_arming_sequencer.md R115, 70_reset_and_hazards.md R146): a hold whose
target is at least 1 is never over. -/

namespace Sys2Proof.Machine

variable {p : Params} {b : Block} {i : Inputs}

theorem msTicks_eq_zero {is : List Inputs} (ht : ∀ k ∈ is, k.msTick = false) : msTicks is = 0 :=
  List.countP_eq_zero.2 fun k hk => by simp [ht k hk]

/-- The hold after a drive case is chosen from the toggled line (R108). -/
theorem Block.driveCase_holdTarget (p : Params) (b : Block) :
    b.driveCase.holdTarget p = if b.outLine then p.armLowMs else p.armHighMs := by
  rw [Block.holdTarget, Block.driveCase_outLine]
  cases b.outLine <;> rfl

/-- The cycle of a drive case begins the hold: its tick does not count, for the drive case clears ElapsedMillis after it. -/
theorem blockCycle_beginsHold (hm : b.seqState = .arming) (hd : b.seqPhase = .drive)
    (hi : b.iterCount.toNat ≠ p.armIterations) (hr : i.rst = false) :
    b.driveCase.HoldAfter 0 (blockCycle p b i).1 := by
  cases blockCycle_armingCycle (p := p) hm hr with
  | finish d m _ done => exact absurd done hi
  | drive d _ _ result =>
    rw [result]
    exact { arming := hm, hold := rfl, count := rfl, line := rfl, millis := rfl }
  | endHold d m hold => cases hd.symm.trans hold
  | wait d m hold => cases hd.symm.trans hold

/-- From the drive case on without ticks, the block stays in the hold that the drive case began. -/
theorem runBlock_holds_without_ticks {is : List Inputs} (hp : p.wf) (hm : b.seqState = .arming)
    (hd : b.seqPhase = .drive) (hi : b.iterCount.toNat ≠ p.armIterations) (hr : NoReset (i :: is))
    (ht : ∀ k ∈ is, k.msTick = false) (target : 0 < b.driveCase.holdTarget p) :
    b.driveCase.HoldAfter 0 (runBlock p b (i :: is)) := by
  obtain ⟨hri, hr⟩ := List.forall_mem_cons.1 hr
  have begun := blockCycle_beginsHold hm hd hi hri
  have quiet := msTicks_eq_zero ht
  have more : (blockCycle p b i).1.elapsedMillis.toNat + msTicks is < (blockCycle p b i).1.holdTarget p := by
    rwa [begun.millis, begun.holdTarget, quiet]
  have held := runBlock_holds hp is begun.arming begun.hold hr more
  rw [quiet] at held
  exact begun.trans held

/-- A hold with target 0 ends in the first cycle after its drive case, and the block is back in the drive phase. -/
theorem blockCycle_endsEmptyHold (hp : p.wf) {d : Block} (begun : d.HoldAfter 0 b) (target : d.holdTarget p = 0)
    (hr : i.rst = false) :
    (blockCycle p b i).1.seqState = .arming ∧ (blockCycle p b i).1.seqPhase = .drive ∧
      (blockCycle p b i).1.iterCount = d.iterCount + 1 ∧ (blockCycle p b i).1.outLine = d.outLine := by
  have served : b.holdTarget p ≤ b.elapsedMillis.toNat + if i.msTick then 1 else 0 := by
    rw [begun.holdTarget, target]
    exact Nat.zero_le _
  obtain ⟨drive, count, line⟩ := blockCycle_endsHold hp begun.arming begun.hold hr served
  have mode : (blockCycle p b i).1.seqState = .arming := by
    rw [blockCycle_seqState_of_arming hr begun.arming, if_neg (by simp [begun.hold])]
  exact ⟨mode, drive, by rw [count, begun.count], by rw [line, begun.line]⟩

end Sys2Proof.Machine
end

section
/-! SUPPORT. Reset and the reference host (70_reset_and_hazards.md R141, R143, R148): the registers after reset, the two
steps that begin the reference host's program, and what a looping host that only presents commands keeps. -/

namespace Sys2Proof.Machine

variable {p : Params} {b : Block} {i : Inputs}

/-! ## After reset (R143) -/

/-- STATUS of IDLE with its initial elements is 0, and the other three elements are 0 themselves. -/
theorem Block.reset_readReg (r : HostReg) : Block.reset.readReg r = 0 := by
  cases r <;> decide

/-! ## A host that only presents commands (R148) -/

/-- Each of the tasks presents a command and no reset in its steps. -/
def CommandsOnly (ts : List HostTask) : Prop := ∀ t ∈ ts, t.resets = false ∧ t.command.isSome = true

theorem CommandsOnly.hostInputs_rst {ts : List HostTask} (h : CommandsOnly ts) (ticks : Bool × Bool) :
    (hostInputs ticks ts).rst = false := by
  cases ts with
  | nil => rfl
  | cons t ts => exact (List.forall_mem_cons.1 h).1.1

theorem CommandsOnly.hostInputs_hValid {ts : List HostTask} (h : CommandsOnly ts) (hne : ts ≠ [])
    (ticks : Bool × Bool) : (hostInputs ticks ts).hValid = true := by
  cases ts with
  | nil => exact absurd rfl hne
  | cons t ts => exact (List.forall_mem_cons.1 h).1.2

/-- What is left after a step is what was there before it, or the polling of a DELAY, which reads. -/
theorem CommandsOnly.after_hostStep {ts : List HostTask} (h : CommandsOnly ts) (p : Params) (ticks : Bool × Bool)
    (b : Block) : CommandsOnly (hostStep p ticks (b, ts)).2 := by
  cases ts with
  | nil => exact nofun
  | cons t ts =>
    obtain ⟨ht, hts⟩ := List.forall_mem_cons.1 h
    intro u hu
    obtain left | later := List.mem_append.1 hu
    · obtain rfl | ⟨n, rfl⟩ := HostTask.after_cases (Option.mem_toList.1 left)
      · exact ht
      · exact ⟨rfl, rfl⟩
    · exact hts u later

theorem CommandsOnly.ready {body : Nat → List HostTask} (hbody : ∀ k, CommandsOnly (body k)) {h : LoopHost}
    (hh : CommandsOnly h.tasks) : CommandsOnly (h.ready body).tasks := by
  unfold LoopHost.ready
  split
  · exact hbody _
  · exact hh

/-- A loop that always has something to do leaves its host with something to do. -/
theorem LoopHost.ready_tasks_ne_nil {body : Nat → List HostTask} (hbody : ∀ k, body k ≠ []) (h : LoopHost) :
    (h.ready body).tasks ≠ [] := by
  unfold LoopHost.ready
  split
  · exact hbody _
  · next ht => simp [ht]

theorem hostStep_block (p : Params) (ticks : Bool × Bool) (c : Block × List HostTask) :
    (hostStep p ticks c).1 = (blockCycle p c.1 (hostInputs ticks c.2)).1 := by
  unfold hostStep
  split <;> rfl

/-- A run with such a host never resets, so it keeps whatever every cycle without reset keeps. -/
theorem runLoop_keeps {P : Block → Prop}
    (keep : ∀ (b : Block) (i : Inputs), i.rst = false → P b → P (blockCycle p b i).1)
    {body : Nat → List HostTask} (hbody : ∀ k, CommandsOnly (body k)) (ticks : List (Bool × Bool))
    {c : Block × LoopHost} (hb : P c.1) (hh : CommandsOnly c.2.tasks) :
    P (runLoop p body ticks c).1 ∧ CommandsOnly (runLoop p body ticks c).2.tasks := by
  induction ticks generalizing c with
  | nil => exact ⟨hb, hh⟩
  | cons t ts ih =>
    have ready := CommandsOnly.ready hbody hh
    have kept : P (loopStep p body t c).1 := by
      rw [loopStep, hostStep_block]
      exact keep _ _ (ready.hostInputs_rst t) hb
    exact ih kept (ready.after_hostStep p t c.1)

/-! ## The reference host's program (R148) -/

theorem referenceTurn_commandsOnly (maxRaw raw : Nat) : CommandsOnly (referenceTurn maxRaw raw) :=
  List.forall_mem_cons.2 ⟨⟨rfl, rfl⟩, List.forall_mem_singleton.2 ⟨rfl, rfl⟩⟩

/-- The reference host's second task: BOOT with the timebase's result. -/
theorem bootTask_commandsOnly (timebaseOk : Bool) :
    CommandsOnly [if timebaseOk then HostTask.bootOk else HostTask.bootFail, .waitRun] := by
  refine List.forall_mem_cons.2 ⟨?_, List.forall_mem_singleton.2 ⟨rfl, rfl⟩⟩
  cases timebaseOk <;> exact ⟨rfl, rfl⟩

/-- The first step of the reference host is the reset step, whatever the block was before. -/
theorem runReference_cons (p : Params) (timebaseOk : Bool) (maxRaw : Nat) (raw : Nat → Nat) (t : Bool × Bool)
    (ts : List (Bool × Bool)) (b : Block) :
    runReference p timebaseOk maxRaw raw (t :: ts) b = runLoop p (referenceLoop maxRaw raw) ts
      (Block.reset, ⟨[if timebaseOk then .bootOk else .bootFail, .waitRun], 0⟩) := rfl

/-! ## The failed timebase (R103, R121) -/

/-- The block has halted, with the line low and the waveform at its beginning. -/
structure Block.HaltedLow (b : Block) : Prop where
  halted : b.seqState = .halted
  line : b.outLine = false
  phase : b.phaseCounter = 0

theorem blockCycle_keeps_haltedLow (h : b.HaltedLow) (hr : i.rst = false) : (blockCycle p b i).1.HaltedLow := by
  rw [blockCycle_block_of_halted h.halted hr, afterTicks_eq_of_not_run (by simp [h.halted])]
  exact { halted := h.halted, line := h.line, phase := h.phase }

/-- BOOT #0 halts the reset block: the ticks of its step write ElapsedMillis at most. -/
theorem blockCycle_reset_bootFail (hr : i.rst = false) (hv : i.hValid = true)
    (hc : decodeHost i.hCmd = .ok (.boot 0#1)) : (blockCycle p Block.reset i).1.HaltedLow := by
  have ticked : afterSequencer p Block.reset i =
      { Block.reset with elapsedMillis := (afterTicks p Block.reset i).elapsedMillis } :=
    (afterSequencer_of_not_arming p i (by decide)).trans (afterTicks_eq_of_not_run (by decide))
  rw [blockCycle_of_command hr hv hc, ticked, applyOp_boot_zero_of_idle rfl]
  exact { halted := rfl, line := rfl, phase := rfl }

end Sys2Proof.Machine
end

section
/-! The statements of 70_reset_and_hazards.md. -/

open Sys2Proof Sys2Proof.Machine

/-- Settles O37: without ticks the first hold whose target is at least 1 never ends. That is the high hold of the first
iteration, or, where ARM_HIGH_MS is 0, the low hold that the third step begins. -/
theorem armingWaitsWithoutTicks : Obligations.ArmingWaitsWithoutTicks := by
  rintro p b is hp ⟨hm, hd, hi, line, -⟩ hr ht
  have ⟨_, _, _, ⟨_, iterations, _⟩, shorter, _⟩ := hp
  have first : b.iterCount.toNat ≠ p.armIterations := by
    rw [hi]
    exact Nat.ne_of_lt (Nat.zero_lt_of_lt iterations)
  have high : b.driveCase.outLine = true := by simp [line]
  have target : b.driveCase.holdTarget p = p.armHighMs := by simp [Block.driveCase_holdTarget, line]
  cases is with
  | nil => exact ⟨hm, nofun, nofun⟩
  | cons i is =>
    obtain ⟨-, ht⟩ := List.forall_mem_cons.1 ht
    obtain zero | positive := Nat.eq_zero_or_pos p.armHighMs
    · obtain ⟨hri, hr⟩ := List.forall_mem_cons.1 hr
      have begun := blockCycle_beginsHold hm hd first hri
      cases is with
      | nil => exact ⟨begun.arming, by omega, by simp⟩
      | cons j is =>
        obtain ⟨-, ht⟩ := List.forall_mem_cons.1 ht
        obtain ⟨hrj, hr⟩ := List.forall_mem_cons.1 hr
        obtain ⟨mode, drive, count, still⟩ := blockCycle_endsEmptyHold hp begun (target.trans zero) hrj
        cases is with
        | nil => exact ⟨mode, by omega, by simp⟩
        | cons k is =>
          obtain ⟨-, ht⟩ := List.forall_mem_cons.1 ht
          have held := runBlock_holds_without_ticks hp mode drive
            (by rw [count, Block.driveCase_iterCount, hi]; exact Nat.ne_of_lt iterations) hr ht
            (by rw [Block.driveCase_holdTarget, still, high]; exact Nat.zero_lt_of_lt shorter)
          exact ⟨held.arming, by omega, fun _ _ => ⟨held.line.trans (by simp [still, line]), held.hold⟩⟩
    · have held := runBlock_holds_without_ticks hp hm hd first hr ht (target ▸ positive)
      exact ⟨held.arming, fun _ _ => ⟨held.line.trans high, held.hold⟩, by omega⟩

/-- Settles O43: the read sees the reset block (O13), whose registers are 0. -/
theorem readsAfterResetReturnZero : Obligations.ReadsAfterResetReturnZero := by
  intro s t c w hr hst hc hw
  rw [step_of_reset hr] at hst
  cases hst
  obtain ⟨r, hcr⟩ : ∃ r, (c, r) ∈ [(Instr.rdStatus, HostReg.status), (.rdDuty, .duty), (.rdMillis, .millis),
      (.rdPhase, .phase)] := by
    obtain rfl | rfl | rfl | rfl := hc
    · exact ⟨.status, by decide⟩
    · exact ⟨.duty, by decide⟩
    · exact ⟨.millis, by decide⟩
    · exact ⟨.phase, by decide⟩
  have next := step_eq_blockCycle (State.present { s.beginCycle with block := Block.reset } (inputsOfCommand w))
  have answer := (readSeesItsOwnStep (State.present _ (inputsOfCommand w)) _ c r hcr rfl rfl hw next).2
  have unticked : afterSequencer Config.params Block.reset (inputsOfCommand w) = Block.reset := rfl
  simp only [State.present_block, State.present_nextInputs, unticked, Block.reset_readReg] at answer
  exact ⟨_, next, answer⟩

/-- Settles O44: the second step presents BOOT #0 to the reset block, and no later step resets. -/
theorem failedTimebaseHaltsForEver : Obligations.FailedTimebaseHaltsForEver := by
  intro p b maxRaw raw ticks hlen c
  obtain ⟨t, u, ts, rfl⟩ : ∃ t u ts, ticks = t :: u :: ts := by
    match ticks, hlen with
    | t :: u :: ts, _ => exact ⟨t, u, ts, rfl⟩
  have tasks := bootTask_commandsOnly false
  have booted : (blockCycle p Block.reset (hostInputs u [.bootFail, .waitRun])).1.HaltedLow :=
    blockCycle_reset_bootFail rfl rfl (decodeHost_hostWord (c := .boot 0#1) rfl)
  have halted : c.HaltedLow := by
    dsimp only [c]
    rw [runReference_cons, runLoop]
    exact (runLoop_keeps (fun _ _ hr h => blockCycle_keeps_haltedLow h hr)
      (fun k => referenceTurn_commandsOnly maxRaw (raw k)) ts booted (tasks.after_hostStep p u Block.reset)).1
  exact ⟨halted.halted, halted.line, halted.phase⟩

/-- Settles O45: after the reset step only commands are left, in the host's program as in each turn of its loop. -/
theorem referenceHostNeverStops : Obligations.ReferenceHostNeverStops := by
  intro p b timebaseOk maxRaw raw ticks next hne
  obtain ⟨t, ts, rfl⟩ := List.exists_cons_of_ne_nil hne
  have turns (k : Nat) : CommandsOnly (referenceLoop maxRaw raw k) := referenceTurn_commandsOnly maxRaw (raw k)
  rw [runReference_cons]
  obtain ⟨-, left⟩ := runLoop_keeps (P := fun _ => True) (p := p) (fun _ _ _ _ => trivial) turns ts
    (c := (Block.reset, ⟨_, 0⟩)) trivial (bootTask_commandsOnly timebaseOk)
  have ready := CommandsOnly.ready turns left
  exact ⟨ready.hostInputs_hValid (LoopHost.ready_tasks_ne_nil (fun _ => List.cons_ne_nil _ _) _) next,
    ready.hostInputs_rst next⟩

/-- Settles O42: the step is the reset step, and the block it leaves is `Block.reset`. -/
theorem resetStepSetsEveryElement : Obligations.ResetStepSetsEveryElement := fun _ hr =>
  ⟨_, step_of_reset hr, rfl, rfl, rfl, rfl, rfl, rfl, rfl, rfl, rfl⟩

/-- Settles O47: a step is the block's cycle, which is a total function. -/
theorem noStateIsFinal : Obligations.NoStateIsFinal := fun s => ⟨_, step_eq_blockCycle s⟩

end
